-- ==== Sys2Proof/Word.lean ====
section
/-! DEFINITION. The word types of the CHIP-8 interpreter engine (00_scope.md R6, R8).
All values of the hardware are unsigned; a bit vector stands only where the spec adds, shifts, masks or slices. -/

namespace Sys2Proof

/-- A byte: a general register, a timer, a memory cell (R6: `REG_BITS`, `TIMER_BITS`). -/
abbrev Byte := BitVec 8

/-- A 16-bit word: an opcode, `pc`, `I`, a stack cell (R6: `PC_BITS`, `I_BITS`, `STACK_DEPTH`). -/
abbrev Word := BitVec 16

/-- The 4-bit index of a general register, `0 <= i <= 15` (10_state.md R20). -/
abbrev RegIndex := Fin 16

end Sys2Proof
end

