-- ==== Sys2Proof/Syntax.lean ====
section
/-! DEFINITION. The instructions: one constructor per row of spec/opcode_table.json, in the table's order
(30_encoding.md R74), with the operand fields of R71 and R72. -/

namespace Sys2Proof

/-- The 35 instructions. `x`, `y` index a register, `nn` and `nnn` are unsigned immediates, `n` is a row count. -/
inductive Instr
  | cls
  | ret
  | sys (nnn : BitVec 12)
  | jp (nnn : BitVec 12)
  | call (nnn : BitVec 12)
  | seImm (x : RegIndex) (nn : Byte)
  | sneImm (x : RegIndex) (nn : Byte)
  | seReg (x y : RegIndex)
  | ldImm (x : RegIndex) (nn : Byte)
  | addImm (x : RegIndex) (nn : Byte)
  | ldReg (x y : RegIndex)
  | or (x y : RegIndex)
  | and (x y : RegIndex)
  | xor (x y : RegIndex)
  | addReg (x y : RegIndex)
  | sub (x y : RegIndex)
  | shr (x y : RegIndex)
  | subn (x y : RegIndex)
  | shl (x y : RegIndex)
  | sneReg (x y : RegIndex)
  | ldI (nnn : BitVec 12)
  | jpV0 (nnn : BitVec 12)
  | rnd (x : RegIndex) (nn : Byte)
  | drw (x y : RegIndex) (n : Fin 16)
  | skp (x : RegIndex)
  | sknp (x : RegIndex)
  | ldVxDt (x : RegIndex)
  | ldVxK (x : RegIndex)
  | ldDtVx (x : RegIndex)
  | ldStVx (x : RegIndex)
  | addI (x : RegIndex)
  | ldF (x : RegIndex)
  | ldB (x : RegIndex)
  | ldMemV (x : RegIndex)
  | ldVMem (x : RegIndex)
  deriving DecidableEq, Repr

/-- The identifier of an instruction in the opcode map (R74), spelled as spec/opcode_table.json spells it. -/
def Instr.mnemonic : Instr → String
  | .cls => "CLS"
  | .ret => "RET"
  | .sys _ => "SYS"
  | .jp _ => "JP"
  | .call _ => "CALL"
  | .seImm _ _ => "SE_IMM"
  | .sneImm _ _ => "SNE_IMM"
  | .seReg _ _ => "SE_REG"
  | .ldImm _ _ => "LD_IMM"
  | .addImm _ _ => "ADD_IMM"
  | .ldReg _ _ => "LD_REG"
  | .or _ _ => "OR"
  | .and _ _ => "AND"
  | .xor _ _ => "XOR"
  | .addReg _ _ => "ADD_REG"
  | .sub _ _ => "SUB"
  | .shr _ _ => "SHR"
  | .subn _ _ => "SUBN"
  | .shl _ _ => "SHL"
  | .sneReg _ _ => "SNE_REG"
  | .ldI _ => "LD_I"
  | .jpV0 _ => "JP_V0"
  | .rnd _ _ => "RND"
  | .drw _ _ _ => "DRW"
  | .skp _ => "SKP"
  | .sknp _ => "SKNP"
  | .ldVxDt _ => "LD_VX_DT"
  | .ldVxK _ => "LD_VX_K"
  | .ldDtVx _ => "LD_DT_VX"
  | .ldStVx _ => "LD_ST_VX"
  | .addI _ => "ADD_I"
  | .ldF _ => "LD_F"
  | .ldB _ => "LD_B"
  | .ldMemV _ => "LD_MEM_V"
  | .ldVMem _ => "LD_V_MEM"

end Sys2Proof
end

