-- ==== Sys2Proof/WellFormed.lean ====
section
/-! DEFINITION. Which instruction terms stand for a word of the instruction set.
Every operand type admits exactly the values its field admits (R72), so the one check left is the extent of SYS. -/

namespace Sys2Proof

/-- The 12-bit operands SYS does not own: 0x000 and 0x0E0 to 0x0EF (30_encoding.md R74, R81; the reading of the
source's `0x0E_` is decision D17). -/
def sysExcluded (nnn : BitVec 12) : Bool :=
  nnn == 0x000#12 || nnn.extractLsb' 4 8 == 0x0E#8

/-- A term is well formed when its words are its own: only a SYS with an excluded operand is not. -/
def Instr.wf : Instr → Bool
  | .sys nnn => !sysExcluded nnn
  | .cls | .ret | .jp _ | .call _ | .seImm _ _ | .sneImm _ _ | .seReg _ _ | .ldImm _ _ | .addImm _ _ | .ldReg _ _
  | .or _ _ | .and _ _ | .xor _ _ | .addReg _ _ | .sub _ _ | .shr _ _ | .subn _ _ | .shl _ _ | .sneReg _ _
  | .ldI _ | .jpV0 _ | .rnd _ _ | .drw _ _ _ | .skp _ | .sknp _ | .ldVxDt _ | .ldVxK _ | .ldDtVx _ | .ldStVx _
  | .addI _ | .ldF _ | .ldB _ | .ldMemV _ | .ldVMem _ => true

end Sys2Proof
end

