-- ==== Sys2Proof/Decode.lean ====
section
/-! DEFINITION. The decoder (30_encoding.md R73), total on words and on bytes, the encoder written from the patterns of
R71 and R74, and the opcode map of R74 as mask and match rows. -/

namespace Sys2Proof

/-- `t = op[15:12]`, the top nibble (00_scope.md R10). -/
def opT (op : Word) : BitVec 4 := op.extractLsb' 12 4

/-- `x = op[11:8]` as a register index (R10, R72). -/
def opX (op : Word) : RegIndex := (op.extractLsb' 8 4).toFin

/-- `y = op[7:4]` as a register index (R10, R72). -/
def opY (op : Word) : RegIndex := (op.extractLsb' 4 4).toFin

/-- `n = op[3:0]` (R10, R72). -/
def opN (op : Word) : BitVec 4 := op.extractLsb' 0 4

/-- `nn = op[7:0]` (R10, R72). -/
def opNN (op : Word) : Byte := op.extractLsb' 0 8

/-- `nnn = op[11:0]` (R10, R72). -/
def opNNN (op : Word) : BitVec 12 := op.extractLsb' 0 12

/-- Family 0x0 of R73: CLS, RET, the excluded words, and SYS with the lowest priority. -/
def decodeFamily0 (op : Word) : Option Instr :=
  if op = 0x00E0#16 then some .cls
  else if op = 0x00EE#16 then some .ret
  else if sysExcluded (opNNN op) then none
  else some (.sys (opNNN op))

/-- Family 0x8 of R73, told apart by the low nibble. -/
def decodeFamily8 (op : Word) : Option Instr :=
  if opN op = 0x0#4 then some (.ldReg (opX op) (opY op))
  else if opN op = 0x1#4 then some (.or (opX op) (opY op))
  else if opN op = 0x2#4 then some (.and (opX op) (opY op))
  else if opN op = 0x3#4 then some (.xor (opX op) (opY op))
  else if opN op = 0x4#4 then some (.addReg (opX op) (opY op))
  else if opN op = 0x5#4 then some (.sub (opX op) (opY op))
  else if opN op = 0x6#4 then some (.shr (opX op) (opY op))
  else if opN op = 0x7#4 then some (.subn (opX op) (opY op))
  else if opN op = 0xE#4 then some (.shl (opX op) (opY op))
  else none

/-- Family 0xE of R73, told apart by the low byte. -/
def decodeFamilyE (op : Word) : Option Instr :=
  if opNN op = 0x9E#8 then some (.skp (opX op))
  else if opNN op = 0xA1#8 then some (.sknp (opX op))
  else none

/-- Family 0xF of R73, told apart by the low byte. -/
def decodeFamilyF (op : Word) : Option Instr :=
  if opNN op = 0x07#8 then some (.ldVxDt (opX op))
  else if opNN op = 0x0A#8 then some (.ldVxK (opX op))
  else if opNN op = 0x15#8 then some (.ldDtVx (opX op))
  else if opNN op = 0x18#8 then some (.ldStVx (opX op))
  else if opNN op = 0x1E#8 then some (.addI (opX op))
  else if opNN op = 0x29#8 then some (.ldF (opX op))
  else if opNN op = 0x33#8 then some (.ldB (opX op))
  else if opNN op = 0x55#8 then some (.ldMemV (opX op))
  else if opNN op = 0x65#8 then some (.ldVMem (opX op))
  else none

/-- `Decode(op)` of R73; `none` is its verdict `Unknown`. Families 0x5 and 0x9 need a zero low nibble (C2, D16). -/
def decodeWord (op : Word) : Option Instr :=
  if opT op = 0x0#4 then decodeFamily0 op
  else if opT op = 0x1#4 then some (.jp (opNNN op))
  else if opT op = 0x2#4 then some (.call (opNNN op))
  else if opT op = 0x3#4 then some (.seImm (opX op) (opNN op))
  else if opT op = 0x4#4 then some (.sneImm (opX op) (opNN op))
  else if opT op = 0x5#4 then (if opN op = 0x0#4 then some (.seReg (opX op) (opY op)) else none)
  else if opT op = 0x6#4 then some (.ldImm (opX op) (opNN op))
  else if opT op = 0x7#4 then some (.addImm (opX op) (opNN op))
  else if opT op = 0x8#4 then decodeFamily8 op
  else if opT op = 0x9#4 then (if opN op = 0x0#4 then some (.sneReg (opX op) (opY op)) else none)
  else if opT op = 0xA#4 then some (.ldI (opNNN op))
  else if opT op = 0xB#4 then some (.jpV0 (opNNN op))
  else if opT op = 0xC#4 then some (.rnd (opX op) (opNN op))
  else if opT op = 0xD#4 then some (.drw (opX op) (opY op) (opN op).toFin)
  else if opT op = 0xE#4 then decodeFamilyE op
  else decodeFamilyF op

/-- Big-endian composition of an opcode: the first byte holds bits 15 to 8 (20_memory.md R54, 30_encoding.md R70). -/
def composeWord (hi lo : Byte) : Word := hi ++ lo

/-- The first byte of an instruction in memory, `op[15:8]` (R70). -/
def highByte (op : Word) : Byte := op.extractLsb' 8 8

/-- The second byte of an instruction in memory, `op[7:0]` (R70). -/
def lowByte (op : Word) : Byte := op.extractLsb' 0 8

/-- Why a byte sequence gives no instruction. -/
inductive DecodeError
  /-- Fewer than the 2 bytes every instruction has (R70); a fetch always has both. -/
  | truncated
  /-- The word matches no instruction, the verdict `Unknown` (R73, R80). -/
  | unknownOpcode (op : Word)
  deriving DecidableEq, Repr

/-- What decoding a byte sequence gives: the instruction with the bytes after it, or a named rejection. -/
inductive Decoded
  | instr (i : Instr) (rest : List Byte)
  | rejected (e : DecodeError)
  deriving DecidableEq, Repr

/-- Decode the first instruction of a byte sequence; total on any bytes. -/
def decodeBytes : List Byte → Decoded
  | hi :: lo :: rest =>
    match decodeWord (composeWord hi lo) with
    | some i => .instr i rest
    | none => .rejected (.unknownOpcode (composeWord hi lo))
  | [_] => .rejected .truncated
  | [] => .rejected .truncated

/-- The instruction that the word `w`, numbered as spec/opcode_table.json numbers it (every bit above `nbits` zero), decodes
to: laid out as its two bytes in memory order, the high byte first (R70), and given to the decoder. -/
def decodeTableWord (nbits w : Nat) : Option Instr :=
  let op : Word := BitVec.ofNat 16 (w % 2 ^ nbits)
  match decodeBytes [highByte op, lowByte op] with
  | .instr i _ => some i
  | .rejected _ => none

/-- The four bits of a register index or row count (R72). -/
def nibble (x : Fin 16) : BitVec 4 := BitVec.ofFin x

/-- Format NNN: opcode nibble and a 12-bit immediate (R71). -/
def encNNN (t : BitVec 4) (nnn : BitVec 12) : Word := t ++ nnn

/-- Format XNN: opcode nibble, register, 8-bit immediate (R71). -/
def encXNN (t : BitVec 4) (x : RegIndex) (nn : Byte) : Word := t ++ nibble x ++ nn

/-- Formats XY and XYN: opcode nibble, two registers, low nibble (R71). -/
def encXYN (t : BitVec 4) (x y : RegIndex) (n : BitVec 4) : Word := t ++ nibble x ++ nibble y ++ n

/-- The word of an instruction, written from the patterns of R74. -/
def encode : Instr → Word
  | .cls => 0x00E0#16
  | .ret => 0x00EE#16
  | .sys nnn => encNNN 0x0#4 nnn
  | .jp nnn => encNNN 0x1#4 nnn
  | .call nnn => encNNN 0x2#4 nnn
  | .seImm x nn => encXNN 0x3#4 x nn
  | .sneImm x nn => encXNN 0x4#4 x nn
  | .seReg x y => encXYN 0x5#4 x y 0x0#4
  | .ldImm x nn => encXNN 0x6#4 x nn
  | .addImm x nn => encXNN 0x7#4 x nn
  | .ldReg x y => encXYN 0x8#4 x y 0x0#4
  | .or x y => encXYN 0x8#4 x y 0x1#4
  | .and x y => encXYN 0x8#4 x y 0x2#4
  | .xor x y => encXYN 0x8#4 x y 0x3#4
  | .addReg x y => encXYN 0x8#4 x y 0x4#4
  | .sub x y => encXYN 0x8#4 x y 0x5#4
  | .shr x y => encXYN 0x8#4 x y 0x6#4
  | .subn x y => encXYN 0x8#4 x y 0x7#4
  | .shl x y => encXYN 0x8#4 x y 0xE#4
  | .sneReg x y => encXYN 0x9#4 x y 0x0#4
  | .ldI nnn => encNNN 0xA#4 nnn
  | .jpV0 nnn => encNNN 0xB#4 nnn
  | .rnd x nn => encXNN 0xC#4 x nn
  | .drw x y n => encXYN 0xD#4 x y (nibble n)
  | .skp x => encXNN 0xE#4 x 0x9E#8
  | .sknp x => encXNN 0xE#4 x 0xA1#8
  | .ldVxDt x => encXNN 0xF#4 x 0x07#8
  | .ldVxK x => encXNN 0xF#4 x 0x0A#8
  | .ldDtVx x => encXNN 0xF#4 x 0x15#8
  | .ldStVx x => encXNN 0xF#4 x 0x18#8
  | .addI x => encXNN 0xF#4 x 0x1E#8
  | .ldF x => encXNN 0xF#4 x 0x29#8
  | .ldB x => encXNN 0xF#4 x 0x33#8
  | .ldMemV x => encXNN 0xF#4 x 0x55#8
  | .ldVMem x => encXNN 0xF#4 x 0x65#8

/-- The two bytes of an instruction in memory order (R54, R70). -/
def encodeBytes (i : Instr) : List Byte := [highByte (encode i), lowByte (encode i)]

/-- One row of the opcode map of R74: the words `op` with `op & mask = bits`. -/
structure OpcodeRow where
  mnemonic : String
  mask : Word
  bits : Word
  deriving DecidableEq, Repr

/-- The opcode map of R74, row by row. -/
def opcodeMap : List OpcodeRow :=
  [⟨"CLS", 0xFFFF, 0x00E0⟩, ⟨"RET", 0xFFFF, 0x00EE⟩, ⟨"SYS", 0xF000, 0x0000⟩, ⟨"JP", 0xF000, 0x1000⟩,
   ⟨"CALL", 0xF000, 0x2000⟩, ⟨"SE_IMM", 0xF000, 0x3000⟩, ⟨"SNE_IMM", 0xF000, 0x4000⟩, ⟨"SE_REG", 0xF00F, 0x5000⟩,
   ⟨"LD_IMM", 0xF000, 0x6000⟩, ⟨"ADD_IMM", 0xF000, 0x7000⟩, ⟨"LD_REG", 0xF00F, 0x8000⟩, ⟨"OR", 0xF00F, 0x8001⟩]
  ++ [⟨"AND", 0xF00F, 0x8002⟩, ⟨"XOR", 0xF00F, 0x8003⟩, ⟨"ADD_REG", 0xF00F, 0x8004⟩, ⟨"SUB", 0xF00F, 0x8005⟩,
   ⟨"SHR", 0xF00F, 0x8006⟩, ⟨"SUBN", 0xF00F, 0x8007⟩, ⟨"SHL", 0xF00F, 0x800E⟩, ⟨"SNE_REG", 0xF00F, 0x9000⟩,
   ⟨"LD_I", 0xF000, 0xA000⟩, ⟨"JP_V0", 0xF000, 0xB000⟩, ⟨"RND", 0xF000, 0xC000⟩, ⟨"DRW", 0xF000, 0xD000⟩]
  ++ [⟨"SKP", 0xF0FF, 0xE09E⟩, ⟨"SKNP", 0xF0FF, 0xE0A1⟩, ⟨"LD_VX_DT", 0xF0FF, 0xF007⟩, ⟨"LD_VX_K", 0xF0FF, 0xF00A⟩,
   ⟨"LD_DT_VX", 0xF0FF, 0xF015⟩, ⟨"LD_ST_VX", 0xF0FF, 0xF018⟩, ⟨"ADD_I", 0xF0FF, 0xF01E⟩, ⟨"LD_F", 0xF0FF, 0xF029⟩,
   ⟨"LD_B", 0xF0FF, 0xF033⟩, ⟨"LD_MEM_V", 0xF0FF, 0xF055⟩, ⟨"LD_V_MEM", 0xF0FF, 0xF065⟩]

/-- Whether a row owns a word: the mask and match of R74, and for SYS the row's exclusions 0x0000 and 0x00E0 to 0x00EF. -/
def OpcodeRow.owns (r : OpcodeRow) (op : Word) : Bool :=
  op &&& r.mask == r.bits && !(r.mnemonic == "SYS" && sysExcluded (opNNN op))

end Sys2Proof
end

