-- ==== Sys2Proof/Config.lean ====
section
/-! DEFINITION. What the spec leaves to a configuration or to an input (00_scope.md R7).
Each is a constant without a body, so a claim about the model holds for every value the spec admits. -/

namespace Sys2Proof

/-- The three admitted treatments of a sprite pixel whose linear index is 2048 or more
(44_display.md R152 case (b), 92_eei_decisions.md D11). -/
inductive DrawOob
  | clip
  | wrap
  | fault
  deriving DecidableEq, Repr, Inhabited

/-- `DRAW_OOB`, fixed for the life of the hardware; the spec does not choose its value (D11, log 2). -/
opaque Config.drawOob : DrawOob

/-- `FONT[k]`, `0 <= k <= 79`; any 80 bytes (10_state.md R33, D14, log 3). -/
opaque Config.font : Nat → Byte

/-- The host's `rnd` inputs: the byte the `n`-th executed `Cxnn` meets (42_alu.md R133, D13).
DESIGN CHOICE: indexed by the counter `State.draws` (log 1, unsafe for claims that compare two runs). -/
opaque Config.rnd : Nat → Byte

end Sys2Proof
end

