-- ==== Sys2Proof/Machine/State.lean ====
section
/-! DEFINITION. The state of the core, as plain data: every piece of state 10_state.md gives it (R20 to R30), and the one
field the model adds for the host's `rnd` inputs (log 1). -/

namespace Sys2Proof.Machine

/-- Memory as the list of the cells that differ from the reset contents, addresses strictly rising
(20_memory.md R50, R51; the canonical form is `Memory.wf`). -/
abbrev Memory := List Host.Cell

/-- The state between two cycles. `keys` and `fb` are cells of one bit (R26, R27): bit `k` is cell `k`. -/
structure State where
  /-- `V0` to `VF` (R20); `VF` is also the flag register (R21). -/
  v : Vector Byte 16
  /-- The index register `I`, all 16 bits kept (R23). -/
  i : Word
  /-- The program counter, all 16 bits kept (R22). -/
  pc : Word
  /-- `SP`, the number of live stack entries, 0 to 16 (R24, D7). -/
  sp : Fin 17
  /-- `Stack[0..15]`; cells above the live region keep what they last held (R24). -/
  stack : Vector Word 16
  /-- The delay timer (R25). -/
  dt : Byte
  /-- The sound timer (R25). -/
  st : Byte
  /-- The keypad latch `Keys[0..15]`, 1 for pressed (R26). -/
  keys : BitVec 16
  /-- The framebuffer `FB[0..2047]`; cell `(cx, cy)` is `cx + 64*cy` (R27). -/
  fb : BitVec 2048
  /-- `DIRTY` (R28). -/
  dirty : Bool
  /-- `HALT`, the code of the fatal condition that ended the session, 0 while it runs (R29). -/
  halt : BitVec 3
  /-- `Mem[0..4095]` (R30). -/
  mem : Memory
  /-- The MODEL'S OWN field: how many `rnd` inputs have been used (log 1). -/
  draws : Nat
  deriving DecidableEq, Repr

/-- Faults that stop the machine outside its own `HALT` register: there are none. Every fatal condition of the hardware is
an entry the spec describes and is a next state with `HALT` written (60_exceptions.md R170, R171, log 5). Safe: nothing
raises a fault. -/
inductive Fault
  deriving DecidableEq, Repr

/-- Refusals. -/
inductive Refusal
  /-- Raised only by an arm of `exec` whose instruction has no meaning yet; no arm does. Safe. -/
  | notModelled (mnemonic : String)
  deriving DecidableEq, Repr

/-- The state after the Reset operation (10_state.md R32, 70_reset_and_hazards.md R190): memory lists nothing, since an
unlisted cell reads as its reset contents. `draws := 0` is a DESIGN CHOICE (log 1). -/
def State.reset : State where
  v := Vector.replicate 16 0
  i := 0
  pc := 0x0200#16
  sp := 0
  stack := Vector.replicate 16 0
  dt := 0
  st := 0
  keys := 0
  fb := 0
  dirty := false
  halt := 0#3
  mem := []
  draws := 0

end Sys2Proof.Machine
end

