-- ==== Sys2Proof/Machine/Memory.lean ====
section
/-! DEFINITION. The 4096-byte memory (20_memory.md R50 to R57): its reset contents, its address translator, and the read
and write of one byte, which keep the canonical form. -/

namespace Sys2Proof.Machine

/-- `FONT[k]` as this machine holds it (10_state.md R33, log 3). -/
def fontByte (k : Nat) : Byte := Config.font k

/-- The address translator `xlate(a) = a[11:0]`, on every access, fetch included (R52, D5). -/
def xlate (a : Word) : Nat := (a.extractLsb' 0 12).toNat

/-- What a cell nothing has written holds: its contents after reset (R32, R51). -/
def Memory.blank (a : Nat) : Byte :=
  if 0x050 ≤ a ∧ a < 0x0A0 then fontByte (a - 0x050) else 0

/-- The byte at a physical address. -/
def Memory.read : Memory → Nat → Byte
  | [], a => Memory.blank a
  | (b, w) :: rest, a => if b = a then w else Memory.read rest a

/-- Write the byte at a physical address, listing it only if it differs from the reset contents. -/
def Memory.write : Memory → Nat → Byte → Memory
  | [], a, v => if v = Memory.blank a then [] else [(a, v)]
  | (b, w) :: rest, a, v =>
    if a < b then (if v = Memory.blank a then (b, w) :: rest else (a, v) :: (b, w) :: rest)
    else if b = a then (if v = Memory.blank a then rest else (a, v) :: rest)
    else (b, w) :: Memory.write rest a v

/-- The canonical form: physical addresses, strictly rising, no entry equal to the reset contents. -/
def Memory.wf : Memory → Bool
  | [] => true
  | (a, v) :: rest =>
    decide (a < 4096) && !decide (v = Memory.blank a) && rest.all (fun c => decide (a < c.1)) && Memory.wf rest

/-- `MemRead(a, 1)` of 00_scope.md R9. -/
def State.memRead (s : State) (a : Word) : Byte := Memory.read s.mem (xlate a)

/-- `MemWrite(a, 1, v)` of R9; no wider write exists. -/
def State.memWrite (s : State) (a : Word) (v : Byte) : State :=
  { s with mem := Memory.write s.mem (xlate a) v }

end Sys2Proof.Machine
end

