-- ==== Sys2Proof/Machine/Ops.lean ====
section
/-! DEFINITION. The named operations over the state: registers, program counter, stack, multi-byte stores and loads, the
framebuffer and the keypad, the fetch, the timer tick, and raising a fatal condition with the one way out of it. -/

namespace Sys2Proof.Machine

/-! ### Registers -/

/-- Read `V[x]` (00_scope.md R9). -/
def State.reg (s : State) (x : RegIndex) : Byte := s.v[x.val]

/-- Write `V[x]` (R9). -/
def State.setReg (s : State) (x : RegIndex) (b : Byte) : State := { s with v := s.v.set x.val b }

/-- The index of `VF`, the flag register (10_state.md R21). -/
def VF : RegIndex := 15

/-- Result first, flag second: at `x = 15` the flag is what stays (42_alu.md R121, D8). -/
def State.setFlagged (s : State) (x : RegIndex) (result flag : Byte) : State :=
  (s.setReg x result).setReg VF flag

/-- Write `I` (10_state.md R23). -/
def State.setI (s : State) (a : Word) : State := { s with i := a }

/-! ### Program counter -/

/-- `pc <- target`, all 16 bits kept (41_control_flow.md R100). -/
def State.jump (s : State) (target : Word) : State := { s with pc := target }

/-- `pc <- pc + 2` modulo 65536 (R100, D6). -/
def State.advance (s : State) : State := s.jump (s.pc + 2#16)

/-- A skip: `pc + 4` when the condition holds, else `pc + 2` (R109). -/
def State.skipIf (s : State) (c : Bool) : State := s.jump (if c then s.pc + 4#16 else s.pc + 2#16)

/-! ### Fatal conditions -/

/-- The four fatal conditions (60_exceptions.md R170). -/
inductive Condition
  | unsupportedInstruction
  | stackOverflow
  | stackUnderflow
  | drawOutOfBounds
  deriving DecidableEq, Repr

/-- The code a condition leaves in `HALT` (10_state.md R29, R170). -/
def Condition.code : Condition → BitVec 3
  | .unsupportedInstruction => 1#3
  | .stackOverflow => 2#3
  | .stackUnderflow => 3#3
  | .drawOutOfBounds => 4#3

/-- `raise c` (R171): the instruction commits nothing and `HALT` takes the code. `cycle` then leaves out the tick. -/
def State.raise (s : State) (c : Condition) : State := { s with halt := c.code }

/-- The only way out of a halted session is the Reset operation (R172, 70_reset_and_hazards.md R190): there is no return
from a fatal condition. The model's own count of used `rnd` inputs goes on, as the host's inputs do (log 1). -/
def hostReset (s : State) : State := { State.reset with draws := s.draws }

/-! ### Call stack -/

/-- Cell `Stack[k]` (10_state.md R24). -/
def State.stackCell (s : State) (k : Fin 16) : Word := s.stack[k.val]

/-- Push `pc` and count it, or nothing when 16 entries are live (10_state.md R24, 41_control_flow.md R102, D7). -/
def State.push (s : State) (a : Word) : Option State :=
  if h : s.sp.val < 16 then
    some { s with stack := s.stack.set s.sp.val a, sp := ⟨s.sp.val + 1, by omega⟩ }
  else none

/-- Pop the newest entry, or nothing when none is live; the cell keeps its value (R24, R101). -/
def State.pop (s : State) : Option (Word × State) :=
  if h : 0 < s.sp.val then
    some (s.stack[s.sp.val - 1]'(by omega), { s with sp := ⟨s.sp.val - 1, by omega⟩ })
  else none

/-! ### Stores and loads of several bytes -/

/-- Store bytes at `a`, `a + 1`, ... modulo 65536, ascending (20_memory.md R57, R58). -/
def State.storeBytes (s : State) (a : Word) : List Byte → State
  | [] => s
  | b :: rest => (s.memWrite a b).storeBytes (a + 1#16) rest

/-- `V[0]` to `V[x]`, in that order (43_index_memory.md R144). -/
def State.regsUpTo (s : State) (x : RegIndex) : List Byte := s.v.toList.take (x.val + 1)

/-- Load `V[0]` to `V[x]` from `a`, `a + 1`, ... modulo 65536; the registers above keep their values (R145). -/
def State.loadRegs (s : State) (a : Word) (x : RegIndex) : State :=
  { s with v := Vector.ofFn fun k : Fin 16 =>
      if k.val ≤ x.val then s.memRead (a + BitVec.ofNat 16 k.val) else s.reg k }

/-! ### Framebuffer -/

/-- Cell `FB[L]` (10_state.md R27). -/
def State.cell (s : State) (L : Nat) : Bool := s.fb.getLsbD L

/-- The framebuffer and the collision flag while a sprite is drawn, a copy committed only if no pixel raised
(44_display.md R151). -/
structure Canvas where
  fb : BitVec 2048
  flag : Bool
  deriving DecidableEq, Repr

/-- Exclusive-or one pixel into cell `L`; a cell that held 1 is a collision (R151). -/
def Canvas.plot (c : Canvas) (L : Nat) : Canvas where
  fb := c.fb ^^^ BitVec.twoPow 2048 L
  flag := c.flag || c.fb.getLsbD L

/-! ### Keypad -/

/-- `Keys[k]` (10_state.md R26). -/
def State.key (s : State) (k : Fin 16) : Bool := s.keys.getLsbD k.val

/-! ### Fetch, timer tick, random input -/

/-- `MemRead(pc, 2)`: two byte reads, each through the translator, the first byte most significant
(40_cycle_and_system.md R91, R54). -/
def State.fetch (s : State) : Word := composeWord (s.memRead s.pc) (s.memRead (s.pc + 1#16))

/-- One decrement of a timer, never below 0 (10_state.md R25). -/
def tickTimer (b : Byte) : Byte := if b = 0#8 then 0#8 else b - 1#8

/-- `TimerTick()` of R92. -/
def State.tick (s : State) : State := { s with dt := tickTimer s.dt, st := tickTimer s.st }

/-- The `beep` of a tick: it takes `ST` from 1 to 0 (R92, 60_exceptions.md R178). -/
def State.beepsOnTick (s : State) : Bool := s.st == 1#8

/-- The `rnd` input a `Cxnn` in this state meets (42_alu.md R133, log 1). -/
def State.rndInput (s : State) : Byte := Config.rnd s.draws

/-- Count one `rnd` input as used, so that the next is a fresh value (log 1). -/
def State.useRnd (s : State) : State := { s with draws := s.draws + 1 }

/-- `DRAW_OOB` as this machine is configured (44_display.md R152, log 2). -/
def drawOob : DrawOob := Config.drawOob

/-- Place a word at `pc`, as its two bytes in memory order (R54). -/
def State.placeWord (s : State) (op : Word) : State := s.storeBytes s.pc [highByte op, lowByte op]

end Sys2Proof.Machine
end

