-- ==== Sys2Proof/Machine/Operands.lean ====
section
/-! DEFINITION. How the instructions form their operands and results from the register and immediate fields: immediates
widened, key numbers, glyph addresses, decimal digits, sprite pixels. -/

namespace Sys2Proof.Machine

/-- `zext_16(nnn)` (30_encoding.md R72). -/
def target (nnn : BitVec 12) : Word := nnn.setWidth 16

/-- `zext_16(V[x])` (00_scope.md R8). -/
def widen (b : Byte) : Word := b.setWidth 16

/-- The key a register selects: its low nibble (45_keypad_timers.md R160, D12). -/
def keyOf (b : Byte) : Fin 16 := (b.extractLsb' 0 4).toFin

/-- The highest-indexed pressed key, if any (R163). -/
def highestKey (keys : BitVec 16) : Option (Fin 16) :=
  (List.finRange 16).reverse.find? fun k => keys.getLsbD k.val

/-- `0x0050 + 5 * zext_16(V[x])` (43_index_memory.md R142). -/
def glyphAddress (b : Byte) : Word := 0x0050#16 + 5#16 * widen b

/-- Hundreds, tens and ones of a byte, each a whole byte (R143). -/
def bcdDigits (b : Byte) : List Byte :=
  [BitVec.ofNat 8 (b.toNat / 100), BitVec.ofNat 8 (b.toNat / 10 % 10), BitVec.ofNat 8 (b.toNat % 10)]

/-- `L = (vx + col) + 64 * (vy + row)`, an unbounded number (44_display.md R151). -/
def pixelIndex (vx vy : Byte) (row col : Nat) : Nat := (vx.toNat + col) + 64 * (vy.toNat + row)

/-- Bit `7 - col` of a sprite byte: bit 7 is the leftmost column (R153, D10). -/
def spriteBit (b : Byte) (col : Nat) : Bool := b.getLsbD (7 - col)

/-- The linear indices of the set pixels of a sprite of `n` rows at `I`, row by row, left to right (R151). -/
def State.spritePixels (s : State) (vx vy : Byte) (n : Nat) : List Nat :=
  (List.range n).flatMap fun row =>
    ((List.range 8).filter fun col => spriteBit (s.memRead (s.i + BitVec.ofNat 16 row)) col).map fun col =>
      pixelIndex vx vy row col

/-- Draw pixels one after another; an index of 2048 or more is treated as `DRAW_OOB` says, and `none` is the raise of
`DrawOutOfBounds` (R151, R152). -/
def Canvas.drawPixels (mode : DrawOob) (c : Canvas) : List Nat → Option Canvas
  | [] => some c
  | L :: rest =>
    if L < 2048 then (c.plot L).drawPixels mode rest
    else
      match mode with
      | .clip => c.drawPixels mode rest
      | .wrap => (c.plot (L % 2048)).drawPixels mode rest
      | .fault => none

end Sys2Proof.Machine
end

