-- ==== Sys2Proof/Machine/Flags.lean ====
section
/-! DEFINITION. The 8-bit results and the flags VF receives (42_alu.md R120, 10_state.md R21). A flag is 0x00 or 0x01. -/

namespace Sys2Proof.Machine

/-- A flag as the whole of `VF` holds it: 0x01 or 0x00 (R21). -/
def flagByte (b : Bool) : Byte := if b then 1#8 else 0#8

/-- The carry of an addition: the 9-bit sum exceeds 255 (R120, R128). -/
def carryFlag (a b : Byte) : Byte := flagByte (decide (255 < a.toNat + b.toNat))

/-- The flag of a subtraction `a - b`: `a > b`, strictly (R120, R129, R131, C3). -/
def greaterFlag (a b : Byte) : Byte := flagByte (decide (b.toNat < a.toNat))

/-- Bit 0 before a right shift (R130). -/
def lowBitFlag (b : Byte) : Byte := flagByte (b.getLsbD 0)

/-- Bit 7 before a left shift (R132). -/
def highBitFlag (b : Byte) : Byte := flagByte (b.getLsbD 7)

/-- `(a + b) mod 256` (R120). -/
def addResult (a b : Byte) : Byte := BitVec.ofNat 8 (a.toNat + b.toNat)

/-- `(a - b) mod 256` (R120). -/
def subResult (a b : Byte) : Byte := BitVec.ofInt 8 ((a.toNat : Int) - (b.toNat : Int))

/-- `b >> 1`; a zero enters at bit 7 (R130). -/
def shrResult (b : Byte) : Byte := b >>> 1

/-- `(b << 1) mod 256`; a zero enters at bit 0 (R132). -/
def shlResult (b : Byte) : Byte := b <<< 1

/-- The masked random byte `rnd & nn` (R133). -/
def rndResult (rnd nn : Byte) : Byte := rnd &&& nn

end Sys2Proof.Machine
end

