-- ==== Sys2Proof/Machine/Alu.lean ====
section
/-! DEFINITION. The meanings of the register loads, the ALU operations and RND (42_alu.md R120 to R133). Every one samples
its operands before it writes (R121) and ends with `pc <- pc + 2`. -/

namespace Sys2Proof.Machine

/-- `6xnn` (R122). -/
def execLdImm (x : RegIndex) (nn : Byte) (s : State) : Host.Outcome State Fault Refusal :=
  .next (s.setReg x nn).advance

/-- `7xnn`: no flag effect (R123). -/
def execAddImm (x : RegIndex) (nn : Byte) (s : State) : Host.Outcome State Fault Refusal :=
  .next (s.setReg x (addResult (s.reg x) nn)).advance

/-- `8xy0` (R124). -/
def execLdReg (x y : RegIndex) (s : State) : Host.Outcome State Fault Refusal :=
  .next (s.setReg x (s.reg y)).advance

/-- `8xy1`: no flag effect (R125). -/
def execOr (x y : RegIndex) (s : State) : Host.Outcome State Fault Refusal :=
  .next (s.setReg x (s.reg x ||| s.reg y)).advance

/-- `8xy2`: no flag effect (R126). -/
def execAnd (x y : RegIndex) (s : State) : Host.Outcome State Fault Refusal :=
  .next (s.setReg x (s.reg x &&& s.reg y)).advance

/-- `8xy3`: no flag effect (R127). -/
def execXor (x y : RegIndex) (s : State) : Host.Outcome State Fault Refusal :=
  .next (s.setReg x (s.reg x ^^^ s.reg y)).advance

/-- `8xy4`: VF is the carry (R128). -/
def execAddReg (x y : RegIndex) (s : State) : Host.Outcome State Fault Refusal :=
  .next (s.setFlagged x (addResult (s.reg x) (s.reg y)) (carryFlag (s.reg x) (s.reg y))).advance

/-- `8xy5`: `Vx - Vy`, VF is `Vx > Vy` (R129). -/
def execSub (x y : RegIndex) (s : State) : Host.Outcome State Fault Refusal :=
  .next (s.setFlagged x (subResult (s.reg x) (s.reg y)) (greaterFlag (s.reg x) (s.reg y))).advance

/-- `8xy6`: `Vx <- Vy >> 1`, VF is bit 0 of `Vy` (R130). -/
def execShr (x y : RegIndex) (s : State) : Host.Outcome State Fault Refusal :=
  .next (s.setFlagged x (shrResult (s.reg y)) (lowBitFlag (s.reg y))).advance

/-- `8xy7`: `Vy - Vx`, VF is `Vy > Vx` (R131). -/
def execSubn (x y : RegIndex) (s : State) : Host.Outcome State Fault Refusal :=
  .next (s.setFlagged x (subResult (s.reg y) (s.reg x)) (greaterFlag (s.reg y) (s.reg x))).advance

/-- `8xyE`: `Vx <- Vy << 1`, VF is bit 7 of `Vy` (R132). -/
def execShl (x y : RegIndex) (s : State) : Host.Outcome State Fault Refusal :=
  .next (s.setFlagged x (shlResult (s.reg y)) (highBitFlag (s.reg y))).advance

/-- `Cxnn` for a given `rnd` input (R133). -/
def State.loadRnd (s : State) (rnd : Byte) (x : RegIndex) (nn : Byte) : State :=
  (s.setReg x (rndResult rnd nn)).advance

/-- `Cxnn`: `Vx <- rnd & nn`, with the input this cycle meets, which is used up (R133, log 1). -/
def execRnd (x : RegIndex) (nn : Byte) (s : State) : Host.Outcome State Fault Refusal :=
  .next (s.loadRnd s.rndInput x nn).useRnd

end Sys2Proof.Machine
end

