-- ==== Sys2Proof/Machine/Control.lean ====
section
/-! DEFINITION. The meanings of the control transfers (41_control_flow.md R101 to R109). -/

namespace Sys2Proof.Machine

/-- `00EE`: pop, and continue after the CALL that pushed; on an empty stack raise `StackUnderflow` (R101). -/
def execRet (s : State) : Host.Outcome State Fault Refusal :=
  match s.pop with
  | some (a, t) => .next (t.jump (a + 2#16))
  | none => .next (s.raise .stackUnderflow)

/-- `1nnn`: `pc <- nnn` (R103). -/
def execJp (nnn : BitVec 12) (s : State) : Host.Outcome State Fault Refusal :=
  .next (s.jump (target nnn))

/-- `2nnn`: push the address of this CALL and jump; on a full stack raise `StackOverflow` (R102). -/
def execCall (nnn : BitVec 12) (s : State) : Host.Outcome State Fault Refusal :=
  match s.push s.pc with
  | some t => .next (t.jump (target nnn))
  | none => .next (s.raise .stackOverflow)

/-- `3xnn`: skip if `Vx = nn` (R104). -/
def execSeImm (x : RegIndex) (nn : Byte) (s : State) : Host.Outcome State Fault Refusal :=
  .next (s.skipIf (s.reg x == nn))

/-- `4xnn`: skip if `Vx != nn` (R105). -/
def execSneImm (x : RegIndex) (nn : Byte) (s : State) : Host.Outcome State Fault Refusal :=
  .next (s.skipIf (s.reg x != nn))

/-- `5xy0`: skip if `Vx = Vy` (R106). -/
def execSeReg (x y : RegIndex) (s : State) : Host.Outcome State Fault Refusal :=
  .next (s.skipIf (s.reg x == s.reg y))

/-- `9xy0`: skip if `Vx != Vy` (R107). -/
def execSneReg (x y : RegIndex) (s : State) : Host.Outcome State Fault Refusal :=
  .next (s.skipIf (s.reg x != s.reg y))

/-- `Bnnn`: `pc <- V0 + nnn`, kept unmasked (R108). -/
def execJpV0 (nnn : BitVec 12) (s : State) : Host.Outcome State Fault Refusal :=
  .next (s.jump (widen (s.reg 0) + target nnn))

end Sys2Proof.Machine
end

