-- ==== Sys2Proof/Machine/Display.lean ====
section
/-! DEFINITION. The meanings of the display instructions (44_display.md R150 to R154). -/

namespace Sys2Proof.Machine

/-- `00E0`: clear every cell and mark dirty; VF is not written (R150). -/
def execCls (s : State) : Host.Outcome State Fault Refusal :=
  .next ({ s with fb := 0, dirty := true } : State).advance

/-- Commit a finished drawing: the framebuffer, VF as the collision flag, DIRTY, `pc + 2` (R151). -/
def State.commitCanvas (s : State) (c : Canvas) : State :=
  (({ s with fb := c.fb, dirty := true } : State).setReg VF (flagByte c.flag)).advance

/-- `Dxyn` under a given `DRAW_OOB`: coordinates are sampled before VF is written, and a raise commits nothing
(R151 to R153, D9). -/
def State.drawSprite (s : State) (mode : DrawOob) (vx vy : Byte) (n : Nat) : State :=
  match (⟨s.fb, false⟩ : Canvas).drawPixels mode (s.spritePixels vx vy n) with
  | some c => s.commitCanvas c
  | none => s.raise .drawOutOfBounds

/-- `Dxyn`: draw `n` rows at `(Vx, Vy)` under the machine's `DRAW_OOB` (R151, log 2). -/
def execDrw (x y : RegIndex) (n : Fin 16) (s : State) : Host.Outcome State Fault Refusal :=
  .next (s.drawSprite drawOob (s.reg x) (s.reg y) n.val)

end Sys2Proof.Machine
end

