-- ==== Sys2Proof/Machine/Index.lean ====
section
/-! DEFINITION. The meanings of the index register and memory instructions (43_index_memory.md R140 to R145). None writes
a flag or raises a condition. -/

namespace Sys2Proof.Machine

/-- `Annn`: `I <- nnn` (R140). -/
def execLdI (nnn : BitVec 12) (s : State) : Host.Outcome State Fault Refusal :=
  .next (s.setI (target nnn)).advance

/-- `Fx1E`: `I <- I + Vx` modulo 65536, no flag (R141). -/
def execAddI (x : RegIndex) (s : State) : Host.Outcome State Fault Refusal :=
  .next (s.setI (s.i + widen (s.reg x))).advance

/-- `Fx29`: point `I` at a glyph; the whole 8-bit value counts (R142). -/
def execLdF (x : RegIndex) (s : State) : Host.Outcome State Fault Refusal :=
  .next (s.setI (glyphAddress (s.reg x))).advance

/-- `Fx33`: hundreds, tens, ones at `I`, `I + 1`, `I + 2`; `I` is unchanged (R143). -/
def execLdB (x : RegIndex) (s : State) : Host.Outcome State Fault Refusal :=
  .next (s.storeBytes s.i (bcdDigits (s.reg x))).advance

/-- `I` after a block of `V[0]` to `V[x]`: `(I + x + 1) mod 65536` (R144, R145). -/
def indexAfterBlock (a : Word) (x : RegIndex) : Word := a + BitVec.ofNat 16 (x.val + 1)

/-- `Fx55`: store `V0` to `Vx` at `I`; `I` advances by `x + 1` after the last store (R144). -/
def execLdMemV (x : RegIndex) (s : State) : Host.Outcome State Fault Refusal :=
  .next ((s.storeBytes s.i (s.regsUpTo x)).setI (indexAfterBlock s.i x)).advance

/-- `Fx65`: load `V0` to `Vx` from `I`; `I` advances by `x + 1` after the last load (R145). -/
def execLdVMem (x : RegIndex) (s : State) : Host.Outcome State Fault Refusal :=
  .next ((s.loadRegs s.i x).setI (indexAfterBlock s.i x)).advance

end Sys2Proof.Machine
end

