-- ==== Sys2Proof/Machine/Keypad.lean ====
section
/-! DEFINITION. The meanings of the keypad and timer instructions (45_keypad_timers.md R160 to R166). The timer tick of the
same cycle follows them in `cycle`. -/

namespace Sys2Proof.Machine

/-- `Ex9E`: skip if the selected key is pressed (R161). -/
def execSkp (x : RegIndex) (s : State) : Host.Outcome State Fault Refusal :=
  .next (s.skipIf (s.key (keyOf (s.reg x))))

/-- `ExA1`: skip if the selected key is not pressed (R162). -/
def execSknp (x : RegIndex) (s : State) : Host.Outcome State Fault Refusal :=
  .next (s.skipIf (!s.key (keyOf (s.reg x))))

/-- `Fx07`: read DT before this cycle's tick (R164). -/
def execLdVxDt (x : RegIndex) (s : State) : Host.Outcome State Fault Refusal :=
  .next (s.setReg x s.dt).advance

/-- `Fx0A`: take the highest pressed key, or leave everything as it is and be fetched again (R163). -/
def execLdVxK (x : RegIndex) (s : State) : Host.Outcome State Fault Refusal :=
  match highestKey s.keys with
  | some k => .next (s.setReg x (BitVec.ofNat 8 k.val)).advance
  | none => .next s

/-- `Fx15`: `DT <- Vx` (R165). -/
def execLdDtVx (x : RegIndex) (s : State) : Host.Outcome State Fault Refusal :=
  .next ({ s with dt := s.reg x } : State).advance

/-- `Fx18`: `ST <- Vx` (R166). -/
def execLdStVx (x : RegIndex) (s : State) : Host.Outcome State Fault Refusal :=
  .next ({ s with st := s.reg x } : State).advance

end Sys2Proof.Machine
end

