-- ==== Sys2Proof/Machine/System.lean ====
section
/-! DEFINITION. The meaning of SYS (40_cycle_and_system.md R95). -/

namespace Sys2Proof.Machine

/-- `0nnn`: always raises `UnsupportedInstruction`; the operand plays no part (R95). -/
def execSys (_nnn : BitVec 12) (s : State) : Host.Outcome State Fault Refusal :=
  .next (s.raise .unsupportedInstruction)

end Sys2Proof.Machine
end

