-- ==== Sys2Proof/Machine/Cycle.lean ====
section
/-! DEFINITION. The Cycle operation with its outputs `status` and `beep` (40_cycle_and_system.md R90, 60_exceptions.md R177,
R178). The outputs are recomputed by every cycle and are not state (10_state.md R31). -/

namespace Sys2Proof.Machine

/-- The `status` output of a cycle (R177). -/
inductive Status
  | progress
  | awaitingKey
  | unknownOpcode
  | fatal
  | halted
  deriving DecidableEq, Repr

/-- What one Cycle operation gives: the state after it and its two outputs (R90). -/
structure CycleResult where
  state : State
  status : Status
  beep : Bool
  deriving DecidableEq, Repr

/-- A cycle that reaches the timer tick (R92). -/
def ticked (s : State) (st : Status) : CycleResult where
  state := s.tick
  status := st
  beep := s.beepsOnTick

/-- A cycle that ends early: no tick, no beep (R90, R171, R172). -/
def untouched (s : State) (st : Status) : CycleResult where
  state := s
  status := st
  beep := false

/-- Whether an instruction waits in this state: `Fx0A` with no key pressed (45_keypad_timers.md R163). -/
def awaitsKey (i : Instr) (s : State) : Bool :=
  match i with
  | .ldVxK _ => s.keys == 0#16
  | _ => false

/-- The end of a cycle whose instruction `i`, begun in `s`, left `t`: `FATAL` without a tick if it raised, else the tick
with `AWAITING_KEY` or `PROGRESS` (R90). -/
def finish (i : Instr) (s t : State) : CycleResult :=
  if t.halt = 0#3 then ticked t (if awaitsKey i s then .awaitingKey else .progress)
  else untouched t .fatal

/-- The Cycle operation (R90), tested in the order of R174: halted, unknown opcode, then the instruction. -/
def cycle (s : State) : Host.Outcome CycleResult Fault Refusal :=
  if s.halt = 0#3 then
    match decodeWord s.fetch with
    | none => .next (ticked s .unknownOpcode)
    | some i =>
      match exec i s with
      | .next t => .next (finish i s t)
      | .fault f => .fault f
      | .refused r => .refused r
  else .next (untouched s .halted)

end Sys2Proof.Machine
end

