-- ==== Sys2Proof/Machine/Step.lean ====
section
/-! DEFINITION. One step of the machine: one Cycle operation, of which it keeps the state. -/

namespace Sys2Proof.Machine

/-- One Cycle operation (40_cycle_and_system.md R90). -/
def step (s : State) : Host.Outcome State Fault Refusal :=
  match cycle s with
  | .next r => .next r.state
  | .fault f => .fault f
  | .refused r => .refused r

/-- `s` with the word `w` (numbered as the opcode table numbers it, every bit above `nbits` zero) stored at `pc`, where the
next cycle fetches; nothing else changes, and an instruction has no bits beyond its 16 (30_encoding.md R70, log 6). -/
def State.withFetchWord (s : State) (nbits w : Nat) : State :=
  s.placeWord (BitVec.ofNat 16 (w % 2 ^ nbits))

end Sys2Proof.Machine
end

