-- ==== Sys2Proof/Machine/HostOps.lean ====
section
/-! DEFINITION. The host operations other than Cycle (60_exceptions.md R180, R183 to R186; 70_reset_and_hazards.md R190,
R191), and one operation type that holds all seven, so that a session is a list of operations. Reset is `hostReset`. -/

namespace Sys2Proof.Machine

/-- The result of Load (R191). -/
inductive LoadResult
  | ok
  | capacityExceeded
  deriving DecidableEq, Repr

/-- The result of SetKey (R183). -/
inductive KeyResult
  | ok
  | badKeyIndex
  deriving DecidableEq, Repr

/-- `PROG_MAX`, the largest program image (00_scope.md R6). -/
def progMax : Nat := 3584

/-- Load(`img`): the length test precedes the copy to 0x200; on success nothing but those bytes changes (R191, D20). -/
def hostLoad (img : List Byte) (s : State) : State × LoadResult :=
  if img.length ≤ progMax then (s.storeBytes 0x0200#16 img, .ok) else (s, .capacityExceeded)

/-- One keypad cell pressed or released, the others unchanged (10_state.md R26). -/
def setKeyCell (keys : BitVec 16) (k : Nat) (pressed : Bool) : BitVec 16 :=
  if pressed then keys ||| BitVec.twoPow 16 k else keys &&& ~~~ BitVec.twoPow 16 k

/-- SetKey(`index`, `pressed`): an index of 16 or more is ignored (R183). -/
def hostSetKey (index : Nat) (pressed : Bool) (s : State) : State × KeyResult :=
  if index < 16 then ({ s with keys := setKeyCell s.keys index pressed }, .ok) else (s, .badKeyIndex)

/-- ReadStatus: the value of HALT (R184). -/
def hostReadStatus (s : State) : BitVec 3 := s.halt

/-- ReadFramebuffer: all 2048 cells and DIRTY (R185). -/
def hostReadFramebuffer (s : State) : BitVec 2048 × Bool := (s.fb, s.dirty)

/-- ClearDirty: DIRTY to 0 and nothing else (R186). -/
def hostClearDirty (s : State) : State := { s with dirty := false }

/-- The seven operations of the core's interface (R180). The `rnd` input of Cycle is a free value (log 1). -/
inductive HostOp
  | reset
  | load (img : List Byte)
  | cycle
  | setKey (index : Nat) (pressed : Bool)
  | readStatus
  | readFramebuffer
  | clearDirty
  deriving DecidableEq, Repr

/-- What an operation returns to the host (R180). -/
inductive HostReply
  | none
  | load (r : LoadResult)
  | cycle (status : Status) (beep : Bool)
  | setKey (r : KeyResult)
  | status (halt : BitVec 3)
  | framebuffer (fb : BitVec 2048) (dirty : Bool)
  deriving DecidableEq, Repr

/-- Perform one operation; each is atomic and none overlaps another (R180, 20_memory.md R62). -/
def perform (op : HostOp) (s : State) : Host.Outcome (State × HostReply) Fault Refusal :=
  match op with
  | .reset => .next (hostReset s, .none)
  | .load img => .next ((hostLoad img s).1, .load (hostLoad img s).2)
  | .cycle =>
    match cycle s with
    | .next r => .next (r.state, .cycle r.status r.beep)
    | .fault f => .fault f
    | .refused r => .refused r
  | .setKey k p => .next ((hostSetKey k p s).1, .setKey (hostSetKey k p s).2)
  | .readStatus => .next (s, .status (hostReadStatus s))
  | .readFramebuffer => .next (s, .framebuffer (hostReadFramebuffer s).1 (hostReadFramebuffer s).2)
  | .clearDirty => .next (hostClearDirty s, .none)

end Sys2Proof.Machine
end

