-- ==== Sys2Proof/Safety.lean ====
section
/-! DEFINITION. The terms the claims use: the invariant, the reachable states, the kinds of state that make no progress, the
parts of the state a frame names, and what a set, an out-of-bounds and a drawn pixel is. -/

namespace Sys2Proof.Safety

open Sys2Proof.Machine

/-! ### Good states and sessions -/

/-- Memory is in canonical form, and HALT holds one of its five codes: "codes 5 to 7 are never written" (10_state.md R29). -/
def Inv (s : State) : Prop := Memory.wf s.mem = true ∧ s.halt.toNat ≤ 4

/-- The states of a session: from the Reset state by host operations (10_state.md R34, 60_exceptions.md R180). The host's
`rnd` inputs may stand anywhere when the session begins. -/
inductive Reachable : State → Prop
  | reset (d : Nat) : Reachable { State.reset with draws := d }
  | perform {s t : State} {op : HostOp} {reply : HostReply} :
      Reachable s → perform op s = .next (t, reply) → Reachable t

/-- A fatal condition has ended the session (60_exceptions.md R172). -/
def Faulted (s : State) : Prop := s.halt ≠ 0#3

/-- The core runs and the word at `pc` is no instruction: the program makes no progress, and this is no fault
(40_cycle_and_system.md R94). -/
def Stuck (s : State) : Prop := s.halt = 0#3 ∧ decodeWord s.fetch = none

/-- The conventional end of a run: `pc` holds the address of a JP to itself (70_reset_and_hazards.md R199 case (c)). -/
def Finished (s : State) : Prop :=
  s.halt = 0#3 ∧ ∃ nnn : BitVec 12, decodeWord s.fetch = some (.jp nnn) ∧ s.pc = target nnn

/-- Execute instructions one after another, without fetch and tick; `none` if one does not answer a next state. -/
def execAll : List Instr → State → Option State
  | [], s => some s
  | i :: rest, s =>
    match exec i s with
    | .next t => execAll rest t
    | .fault _ => none
    | .refused _ => none

/-! ### Frames -/

/-- The parts of the state a frame can name. -/
inductive Part
  | v
  | i
  | pc
  | sp
  | stack
  | dt
  | st
  | keys
  | fb
  | dirty
  | halt
  | mem
  | draws
  deriving DecidableEq, Repr

/-- A part has the same value in two states: register by register, cell by cell, memory byte by byte. -/
def Part.Same (p : Part) (s t : State) : Prop :=
  match p with
  | .v => ∀ r : RegIndex, t.reg r = s.reg r
  | .i => t.i = s.i
  | .pc => t.pc = s.pc
  | .sp => t.sp = s.sp
  | .stack => ∀ k : Fin 16, t.stackCell k = s.stackCell k
  | .dt => t.dt = s.dt
  | .st => t.st = s.st
  | .keys => ∀ k : Fin 16, t.key k = s.key k
  | .fb => ∀ L : Nat, L < 2048 → t.cell L = s.cell L
  | .dirty => t.dirty = s.dirty
  | .halt => t.halt = s.halt
  | .mem => ∀ a : Word, t.memRead a = s.memRead a
  | .draws => t.draws = s.draws

/-- Every part but the listed ones is unchanged from `s` to `t`. -/
def SameBut (ps : List Part) (s t : State) : Prop := ∀ p : Part, p ∉ ps → p.Same s t

/-- From `s` to `t` an instruction wrote `b` to `V[x]`, advanced `pc` by 2, and changed nothing else. -/
def WroteReg (x : RegIndex) (b : Byte) (s t : State) : Prop :=
  (∀ r : RegIndex, t.reg r = if r = x then b else s.reg r) ∧ t.pc = s.pc + 2#16 ∧ SameBut [.v, .pc] s t

/-- From `s` to `t` an instruction left `f` in `VF`, wrote `b` to `V[x]` where that is another register, advanced `pc` by 2,
and changed nothing else (42_alu.md R121: at `x = 15` the flag is what `VF` holds, decision D8). -/
def WroteFlagged (x : RegIndex) (b f : Byte) (s t : State) : Prop :=
  t.reg 15 = f ∧ (∀ r : RegIndex, r ≠ 15 → t.reg r = if r = x then b else s.reg r) ∧ t.pc = s.pc + 2#16 ∧
    SameBut [.v, .pc] s t

/-- Which registers an instruction may write: the `V[x]`, `V[0..x]` and `VF` rows of the access table (10_state.md R35). -/
def mayWriteReg (i : Instr) (r : RegIndex) : Prop :=
  match i with
  | .ldImm x _ | .addImm x _ | .rnd x _ => r = x
  | .ldReg x _ | .or x _ | .and x _ | .xor x _ => r = x
  | .addReg x _ | .sub x _ | .shr x _ | .subn x _ | .shl x _ => r = x ∨ r = 15
  | .drw _ _ _ => r = 15
  | .ldVxDt x | .ldVxK x => r = x
  | .ldVMem x => r.val ≤ x.val
  | .cls | .ret | .sys _ | .jp _ | .call _ | .seImm _ _ | .sneImm _ _ | .seReg _ _ | .sneReg _ _ | .ldI _ | .jpV0 _
  | .skp _ | .sknp _ | .ldDtVx _ | .ldStVx _ | .addI _ | .ldF _ | .ldB _ | .ldMemV _ => False

/-! ### Sprites -/

/-- `L` is the linear index of a set bit of the sprite of `n` rows at `I`, drawn with its corner at `(vx, vy)`
(44_display.md R151, R153; bit 7 is column 0 by decision D10). -/
def SetPixel (s : State) (vx vy : Byte) (n : Nat) (L : Nat) : Prop :=
  ∃ row col : Nat, row < n ∧ col < 8 ∧ (s.memRead (s.i + BitVec.ofNat 16 row)).getLsbD (7 - col) = true ∧
    L = (vx.toNat + col) + 64 * (vy.toNat + row)

/-- Some set bit of the sprite has linear index 2048 or more (R152 case (b)). -/
def SomePixelOutside (s : State) (vx vy : Byte) (n : Nat) : Prop :=
  ∃ L, SetPixel s vx vy n L ∧ 2048 ≤ L

/-- Cell `c` receives a pixel: at its own index inside the buffer, and under `wrap` at the index modulo 2048 (R152). -/
def DrawnCell (mode : DrawOob) (s : State) (vx vy : Byte) (n : Nat) (c : Nat) : Prop :=
  ∃ L, SetPixel s vx vy n L ∧ (L < 2048 ∧ c = L ∨ 2048 ≤ L ∧ mode = .wrap ∧ c = L % 2048)

/-- From `s` to `t` exactly the cells of `drawn` were inverted, VF tells whether one of them held 1, DIRTY is set, `pc`
advanced by 2, and nothing else changed (R151). -/
def DrewCells (drawn : Nat → Prop) (s t : State) : Prop :=
  (∀ c, c < 2048 → (drawn c → t.cell c = !s.cell c) ∧ (¬ drawn c → t.cell c = s.cell c)) ∧
  ((∃ c, drawn c ∧ s.cell c = true) → t.reg 15 = 1#8) ∧ ((¬ ∃ c, drawn c ∧ s.cell c = true) → t.reg 15 = 0#8) ∧
  (∀ r : RegIndex, r ≠ 15 → t.reg r = s.reg r) ∧ t.dirty = true ∧ t.pc = s.pc + 2#16 ∧
  SameBut [.v, .fb, .dirty, .pc] s t

end Sys2Proof.Safety
end

