-- ==== Sys2Proof/Certificates/Slice0/Obligations.lean ====
section
/-! DEFINITION. The statements for the provers, in the order of OBLIGATIONS.json. `R<n>` and `D<n>` are the spec's ids; a
docstring names the decision of the spec or the log entry of the model that a clause rests on. -/

open Sys2Proof Sys2Proof.Machine Sys2Proof.Safety

/-! ### Encoding -/

/-- R70 to R74: the two bytes of a well-formed instruction decode to it, whatever follows them. -/
def Obligations.DecodeOfEncodeIsTheInstruction : Prop :=
  ∀ (i : Instr) (rest : List Byte), i.wf = true → decodeBytes (encodeBytes i ++ rest) = .instr i rest

/-- R73, R82: a word that decodes is the word of its instruction, which is well formed; no bit of it is unread. -/
def Obligations.EncodeOfDecodeIsTheWord : Prop :=
  ∀ (w : Word) (i : Instr), decodeWord w = some i → encode i = w ∧ i.wf = true

/-- R73 and R74 agree: a row of the opcode map owns a word exactly when the decoder gives it the row's instruction
(the extent of SYS is decision D17, the low nibble of SE and SNE decision D16). -/
def Obligations.OpcodeMapRowsOwnWhatDecodesToThem : Prop :=
  ∀ (w : Word) (row : OpcodeRow), row ∈ opcodeMap →
    (row.owns w = true ↔ ∃ i, decodeWord w = some i ∧ i.mnemonic = row.mnemonic)

/-- R80: the words that match no instruction, family by family, written with the word as a number
(decisions D16 and D17). -/
def Obligations.UnknownWordsAreExactlyTheListed : Prop :=
  ∀ w : Word, decodeWord w = none ↔
    w.toNat = 0x0000 ∨ (0x00E1 ≤ w.toNat ∧ w.toNat ≤ 0x00ED) ∨ w.toNat = 0x00EF ∨
    (w.toNat / 4096 = 0x5 ∧ w.toNat % 16 ≠ 0) ∨
    (w.toNat / 4096 = 0x8 ∧ 8 ≤ w.toNat % 16 ∧ w.toNat % 16 ≠ 0xE) ∨
    (w.toNat / 4096 = 0x9 ∧ w.toNat % 16 ≠ 0) ∨
    (w.toNat / 4096 = 0xE ∧ w.toNat % 256 ≠ 0x9E ∧ w.toNat % 256 ≠ 0xA1) ∨
    (w.toNat / 4096 = 0xF ∧ w.toNat % 256 ∉ [0x07, 0x0A, 0x15, 0x18, 0x1E, 0x29, 0x33, 0x55, 0x65])

/-- Words the spec writes out in its examples decode to the instructions they stand for, one or more per family. -/
def Obligations.WrittenOutWordsDecode : Prop :=
  decodeTableWord 16 0x00E0 = some .cls ∧ decodeTableWord 16 0x00EE = some .ret ∧
  decodeTableWord 16 0x0234 = some (.sys 0x234) ∧ decodeTableWord 16 0x1ABC = some (.jp 0xABC) ∧
  decodeTableWord 16 0x332B = some (.seImm 3 0x2B) ∧ decodeTableWord 16 0x7A03 = some (.addImm 10 3) ∧
  decodeTableWord 16 0x812E = some (.shl 1 2) ∧ decodeTableWord 16 0xA2F0 = some (.ldI 0x2F0) ∧
  decodeTableWord 16 0xD125 = some (.drw 1 2 5) ∧ decodeTableWord 16 0xE2A1 = some (.sknp 2) ∧
  decodeTableWord 16 0xF533 = some (.ldB 5) ∧ decodeTableWord 16 0x5121 = none ∧ decodeTableWord 16 0x0000 = none

/-! ### Reset, the invariant, the reachable states -/

/-- R32: the complete table of reset values (DIRTY is decision D15, HALT decision D4). -/
def Obligations.ResetLeavesTheTabulatedValues : Prop :=
  (∀ x, State.reset.reg x = 0) ∧ State.reset.pc.toNat = 0x200 ∧ State.reset.i = 0 ∧ State.reset.sp = 0 ∧
  (∀ k, State.reset.stackCell k = 0) ∧ State.reset.dt = 0 ∧ State.reset.st = 0 ∧ (∀ k, State.reset.key k = false) ∧
  (∀ L, L < 2048 → State.reset.cell L = false) ∧ State.reset.dirty = false ∧ State.reset.halt = 0#3 ∧
  (∀ a, a < 0x050 → Memory.read State.reset.mem a = 0) ∧
  (∀ k, k ≤ 79 → Memory.read State.reset.mem (0x050 + k) = fontByte k) ∧
  (∀ a, 0x0A0 ≤ a → a ≤ 0xFFF → Memory.read State.reset.mem a = 0)

/-- R190: the state after Reset does not depend on the state before it, and a second Reset changes nothing. The count of used
`rnd` inputs, the model's own field, goes on (log 1). -/
def Obligations.ResetForgetsTheStateBefore : Prop :=
  ∀ s : State, ∃ t, perform .reset s = .next (t, .none) ∧ SameBut [.draws] State.reset t ∧ t.draws = s.draws ∧
    perform .reset t = .next (t, .none)

/-- The invariant holds after Reset, wherever the host's `rnd` inputs stand. -/
def Obligations.ResetSatisfiesTheInvariant : Prop := ∀ d : Nat, Inv { State.reset with draws := d }

/-- Every step keeps memory in canonical form and HALT among its five codes (R29: codes 5 to 7 are never written), from every
state that has both. -/
def Obligations.StepKeepsTheInvariant : Prop := ∀ s t : State, Inv s → step s = .next t → Inv t

/-- Every host operation keeps the invariant, so it holds in every state a session reaches (R34, R180). -/
def Obligations.EveryReachableStateSatisfiesTheInvariant : Prop :=
  (∀ (op : HostOp) (s t : State) (reply : HostReply), Inv s → perform op s = .next (t, reply) → Inv t) ∧
    ∀ s : State, Reachable s → Inv s

/-! ### The cycle -/

/-- R91: the opcode is the byte at `pc`, most significant, and the byte after it; cutting each fetch address to 12 bits (R52) is
decision D5 (log 14). -/
def Obligations.FetchComposesTwoBytesBigEndian : Prop :=
  ∀ s : State, s.fetch.toNat = 256 * (Memory.read s.mem (s.pc.toNat % 4096)).toNat +
    (Memory.read s.mem ((s.pc.toNat + 1) % 65536 % 4096)).toNat

/-- R90: when the bytes at `pc` decode to an instruction, `exec` of it answers a next state and a step is that, followed by the
timer tick unless a fatal condition was raised. -/
def Obligations.StepRunsTheDecodedInstruction : Prop :=
  ∀ (s : State) (i : Instr) (rest : List Byte), s.halt = 0#3 →
    decodeBytes [s.memRead s.pc, s.memRead (s.pc + 1#16)] = .instr i rest →
    ∃ t, exec i s = .next t ∧ step s = .next (if t.halt = 0#3 then t.tick else t)

/-- R92 (decision D2): the tick acts on what the instruction left, decrements each timer by one down to 0, and touches nothing
else; a cycle that raised ends without it and without a beep. -/
def Obligations.TickDecrementsBothTimersOnce : Prop :=
  ∀ (s t : State) (i : Instr) (rest : List Byte), s.halt = 0#3 →
    decodeBytes [s.memRead s.pc, s.memRead (s.pc + 1#16)] = .instr i rest → exec i s = .next t →
    ∃ r, cycle s = .next r ∧
      (t.halt = 0#3 → r.state.dt.toNat = t.dt.toNat - 1 ∧ r.state.st.toNat = t.st.toNat - 1 ∧
        SameBut [.dt, .st] t r.state ∧ (r.beep = true ↔ t.st.toNat = 1)) ∧
      (t.halt ≠ 0#3 → r.state = t ∧ r.status = .fatal ∧ r.beep = false)

/-- R174, R177: every cycle answers; its status is decided in the order halted, unknown opcode, fatal, awaiting key, progress;
`pc` changes only with status PROGRESS, and a beep never comes with FATAL or HALTED (decisions D4, D22). -/
def Obligations.StatusFollowsThePriority : Prop :=
  ∀ s : State, ∃ r, cycle s = .next r ∧
    (r.status = .halted ↔ s.halt ≠ 0#3) ∧
    (r.status = .unknownOpcode ↔ s.halt = 0#3 ∧ decodeWord s.fetch = none) ∧
    (r.status = .fatal ↔ s.halt = 0#3 ∧ r.state.halt ≠ 0#3) ∧
    (r.status = .awaitingKey ↔ s.halt = 0#3 ∧ (∃ x, decodeWord s.fetch = some (.ldVxK x)) ∧ ∀ k, s.key k = false) ∧
    (r.state.pc ≠ s.pc → r.status = .progress) ∧
    (r.beep = true → r.status ≠ .fatal ∧ r.status ≠ .halted)

/-- R178 (decision D26): `beep` is 1 exactly in a cycle whose tick takes ST from 1 to 0: ST as `Fx18` sets it in this cycle, or
else as it stood. -/
def Obligations.BeepMarksTheSoundTimerReachingZero : Prop :=
  ∀ (s : State) (r : CycleResult), cycle s = .next r →
    (r.beep = true ↔ r.status ≠ .fatal ∧ r.status ≠ .halted ∧
      ((∃ x, decodeWord s.fetch = some (.ldStVx x) ∧ s.reg x = 1#8) ∨
        (¬ (∃ x, decodeWord s.fetch = some (.ldStVx x)) ∧ s.st = 1#8))) ∧
    (r.beep = true → r.state.st = 0#8)

/-- R94 (decision D3): at an unknown opcode a cycle changes nothing but the timers and the core stays there; after at most 255
cycles the state is a fixed point. -/
def Obligations.UnknownOpcodeIsHeldForEver : Prop :=
  ∀ s : State, Stuck s →
    (∃ r, cycle s = .next r ∧ r.status = .unknownOpcode ∧ r.state.dt.toNat = s.dt.toNat - 1 ∧
      r.state.st.toNat = s.st.toNat - 1 ∧ SameBut [.dt, .st] s r.state ∧ Stuck r.state) ∧
    ∀ n : Nat, 255 ≤ n → Sys2Proof.core.run n s = .next { s with dt := 0#8, st := 0#8 }

/-- R172 (decision D4): a halted core does nothing in any number of cycles and reports HALTED without a beep. -/
def Obligations.HaltedCoreDoesNothing : Prop :=
  ∀ s : State, Faulted s → (∃ r, cycle s = .next r ∧ r.state = s ∧ r.status = .halted ∧ r.beep = false) ∧
    ∀ n : Nat, Sys2Proof.core.run n s = .next s

/-- R199 case (c), R103: a JP to itself changes nothing but the timers, and the core stays there. -/
def Obligations.SelfJumpOnlyRunsTheTimersDown : Prop :=
  ∀ s : State, Finished s → ∃ t, step s = .next t ∧ t.dt.toNat = s.dt.toNat - 1 ∧ t.st.toNat = s.st.toNat - 1 ∧
    SameBut [.dt, .st] s t ∧ Finished t

/-- R61, R58: a store of `V0` and `V1` over the two bytes after itself is what the next cycle fetches. -/
def Obligations.StoreOverTheNextInstructionIsFetched : Prop :=
  ∀ (s : State) (x : RegIndex), Memory.wf s.mem = true → s.halt = 0#3 → decodeWord s.fetch = some (.ldMemV x) →
    1 ≤ x.val → s.i = s.pc + 2#16 → ∃ t, step s = .next t ∧ t.fetch.toNat = 256 * (s.reg 0).toNat + (s.reg 1).toNat

/-! ### Fatal conditions and whole-machine rules -/

/-- Every instruction in every state answers a next state. SYS, CALL on a full stack, RET on an empty one and DRW under `fault`
end the session (R170, R172, decision D4): that they answer a next state with HALT written, and not the outcome fault, is the model's choice
(log 5), so `t.halt` need not be 0. Everything else completes: no instruction raises on overflow, no access faults (R120, R52). -/
def Obligations.ExecAlwaysAnswersANextState : Prop :=
  (∀ (i : Instr) (s : State), ∃ t, exec i s = .next t) ∧ ∀ s : State, ∃ t, step s = .next t

/-- R170, R171 (decision D4): the four conditions, who raises each and when; the raising instruction leaves everything but HALT
as it was. -/
def Obligations.OnlyTheFourConditionsAreRaised : Prop :=
  ∀ (i : Instr) (s t : State), s.halt = 0#3 → exec i s = .next t → t.halt ≠ 0#3 →
    t = { s with halt := t.halt } ∧
    ((t.halt = 1#3 ∧ ∃ nnn, i = .sys nnn) ∨
     (t.halt = 2#3 ∧ s.sp.val = 16 ∧ ∃ nnn, i = .call nnn) ∨
     (t.halt = 3#3 ∧ s.sp.val = 0 ∧ i = .ret) ∨
     (t.halt = 4#3 ∧ drawOob = .fault ∧ ∃ x y n, i = .drw x y n ∧ SomePixelOutside s (s.reg x) (s.reg y) n.val))

/-- R35: which instruction may write which state; every instruction leaves the rest unchanged. `draws` is the model's own
(log 1). -/
def Obligations.OnlyTheListedInstructionsWrite : Prop :=
  ∀ (i : Instr) (s t : State), exec i s = .next t →
    (∀ r, ¬ mayWriteReg i r → t.reg r = s.reg r) ∧
    (i.mnemonic ∉ ["LD_I", "ADD_I", "LD_F", "LD_MEM_V", "LD_V_MEM"] → t.i = s.i) ∧
    (i.mnemonic ∉ ["RET", "CALL"] → t.sp = s.sp) ∧
    (i.mnemonic ≠ "CALL" → ∀ k, t.stackCell k = s.stackCell k) ∧
    (i.mnemonic ≠ "LD_DT_VX" → t.dt = s.dt) ∧
    (i.mnemonic ≠ "LD_ST_VX" → t.st = s.st) ∧
    (∀ k, t.key k = s.key k) ∧
    (i.mnemonic ∉ ["CLS", "DRW"] → (∀ L, L < 2048 → t.cell L = s.cell L) ∧ t.dirty = s.dirty) ∧
    (i.mnemonic ∉ ["LD_B", "LD_MEM_V"] → ∀ a, t.memRead a = s.memRead a) ∧
    (i.mnemonic ∉ ["SYS", "CALL", "RET", "DRW"] → t.halt = s.halt) ∧
    (i.mnemonic ≠ "RND" → t.draws = s.draws)

/-- R26, R35: only SKP, SKNP and LD Vx,K read the keypad: any other instruction does the same under any keys, the `rnd` input held
equal (the two executions share `draws` and so meet the same free value: the model's choice, log 1). -/
def Obligations.OnlyKeyInstructionsReadTheKeypad : Prop :=
  ∀ (i : Instr) (s : State) (keys : BitVec 16), i.mnemonic ∉ ["SKP", "SKNP", "LD_VX_K"] →
    ∃ t, exec i s = .next t ∧ exec i { s with keys := keys } = .next { t with keys := keys }

/-- R25, R28, R35: no instruction reads ST or DIRTY: two states that differ only there go to two states that differ at most
there, the `rnd` input held equal (the two share `draws` and so meet the same free value: the model's choice, log 1). -/
def Obligations.NoInstructionReadsSoundTimerOrDirty : Prop :=
  ∀ (i : Instr) (s : State) (st : Byte) (dirty : Bool),
    ∃ t u, exec i s = .next t ∧ exec i { s with st := st, dirty := dirty } = .next u ∧ SameBut [.st, .dirty] t u

/-- R27, R35: the framebuffer is read only by DRW, and there it reaches nothing but the framebuffer itself and VF, the `rnd` input
held equal (the two executions share `draws` and so meet the same free value: the model's choice, log 1). -/
def Obligations.FramebufferReachesOnlyVFThroughDraw : Prop :=
  ∀ (i : Instr) (s : State) (fb : BitVec 2048),
    ∃ t u, exec i s = .next t ∧ exec i { s with fb := fb } = .next u ∧ SameBut [.fb, .v] t u ∧
      (∀ r, (r ≠ 15 ∨ i.mnemonic ≠ "DRW") → u.reg r = t.reg r)

/-! ### System and control transfer -/

/-- R95: SYS always raises UnsupportedInstruction, whatever its operand, and its cycle ends FATAL without a tick. -/
def Obligations.SysRaisesUnsupportedInstruction : Prop :=
  ∀ (nnn : BitVec 12) (s : State), exec (.sys nnn) s = .next { s with halt := 1#3 } ∧
    (s.halt = 0#3 → decodeWord s.fetch = some (.sys nnn) →
      ∃ r, cycle s = .next r ∧ r.state = { s with halt := 1#3 } ∧ r.status = .fatal ∧ r.beep = false)

/-- R103, R108: JP goes to `nnn`; JP V0 goes to `V0 + nnn`, kept unmasked. -/
def Obligations.JumpsGoToTheirTargets : Prop :=
  ∀ (nnn : BitVec 12) (s : State),
    (∃ t, exec (.jp nnn) s = .next t ∧ t.pc.toNat = nnn.toNat ∧ SameBut [.pc] s t) ∧
    (∃ t, exec (.jpV0 nnn) s = .next t ∧ t.pc.toNat = (s.reg 0).toNat + nnn.toNat ∧ SameBut [.pc] s t)

/-- R102: CALL pushes its own address and jumps; with 16 entries in use it raises StackOverflow and nothing else changes. -/
def Obligations.CallPushesItsOwnAddress : Prop :=
  ∀ (nnn : BitVec 12) (s : State),
    (s.sp.val < 16 → ∃ t, exec (.call nnn) s = .next t ∧
      (∀ k : Fin 16, t.stackCell k = if k.val = s.sp.val then s.pc else s.stackCell k) ∧
      t.sp.val = s.sp.val + 1 ∧ t.pc.toNat = nnn.toNat ∧ SameBut [.pc, .sp, .stack] s t) ∧
    (s.sp.val = 16 → exec (.call nnn) s = .next { s with halt := 2#3 })

/-- R101: RET pops an address and continues 2 after it, the cell keeping its value; on an empty stack it raises StackUnderflow
and nothing else changes. -/
def Obligations.ReturnResumesAfterTheCall : Prop :=
  ∀ s : State,
    (∀ k : Fin 16, s.sp.val = k.val + 1 → ∃ t, exec .ret s = .next t ∧ t.sp.val = k.val ∧
      t.pc.toNat = ((s.stackCell k).toNat + 2) % 65536 ∧ SameBut [.pc, .sp] s t) ∧
    (s.sp.val = 0 → exec .ret s = .next { s with halt := 3#3 })

/-- R101, R102: calls nested as deep as the stack allows, followed by as many returns, resume after the first call with the
stack pointer and the older entries as they were. -/
def Obligations.NestedCallsReturnInOrder : Prop :=
  ∀ (ns : List (BitVec 12)) (s : State), ns ≠ [] → s.sp.val + ns.length ≤ 16 →
    ∃ t, execAll (ns.map Instr.call ++ List.replicate ns.length Instr.ret) s = some t ∧ t.pc = s.pc + 2#16 ∧
      (∀ k : Fin 16, k.val < s.sp.val → t.stackCell k = s.stackCell k) ∧ SameBut [.pc, .stack] s t

/-- R104 to R107: the four register skips add 4 to `pc` exactly when their condition holds, else 2, and change nothing else. -/
def Obligations.SkipsAddFourWhenTheirConditionHolds : Prop :=
  ∀ (x y : RegIndex) (nn : Byte) (s : State),
    (∃ t, exec (.seImm x nn) s = .next t ∧ t.pc = s.pc + (if s.reg x = nn then 4#16 else 2#16) ∧ SameBut [.pc] s t) ∧
    (∃ t, exec (.sneImm x nn) s = .next t ∧ t.pc = s.pc + (if s.reg x = nn then 2#16 else 4#16) ∧ SameBut [.pc] s t) ∧
    (∃ t, exec (.seReg x y) s = .next t ∧ t.pc = s.pc + (if s.reg x = s.reg y then 4#16 else 2#16) ∧ SameBut [.pc] s t) ∧
    (∃ t, exec (.sneReg x y) s = .next t ∧ t.pc = s.pc + (if s.reg x = s.reg y then 2#16 else 4#16) ∧ SameBut [.pc] s t)

/-- R160 to R162: the key skips test the key the low nibble of `Vx` selects (decision D12). -/
def Obligations.KeySkipsTestTheSelectedKey : Prop :=
  ∀ (x : RegIndex) (k : Fin 16) (s : State), k.val = (s.reg x).toNat % 16 →
    (∃ t, exec (.skp x) s = .next t ∧ t.pc = s.pc + (if s.key k = true then 4#16 else 2#16) ∧ SameBut [.pc] s t) ∧
    (∃ t, exec (.sknp x) s = .next t ∧ t.pc = s.pc + (if s.key k = true then 2#16 else 4#16) ∧ SameBut [.pc] s t)

/-! ### Loads and arithmetic -/

/-- R122, R124: load an immediate, copy a register. -/
def Obligations.LoadsWriteOneRegister : Prop :=
  ∀ (x y : RegIndex) (nn : Byte) (s : State),
    (∃ t, exec (.ldImm x nn) s = .next t ∧ WroteReg x nn s t) ∧
    (∃ t, exec (.ldReg x y) s = .next t ∧ WroteReg x (s.reg y) s t)

/-- R123: the sum modulo 256, without a flag. -/
def Obligations.AddImmediateWrapsWithoutFlag : Prop :=
  ∀ (x : RegIndex) (nn : Byte) (s : State), ∃ t b, exec (.addImm x nn) s = .next t ∧
    b.toNat = ((s.reg x).toNat + nn.toNat) % 256 ∧ WroteReg x b s t

/-- R125 to R127: the logical operations, bit by bit, without a flag. -/
def Obligations.LogicalOperationsActOnEachBit : Prop :=
  ∀ (x y : RegIndex) (s : State),
    (∃ t b, exec (.or x y) s = .next t ∧ WroteReg x b s t ∧
      ∀ k, k < 8 → b.getLsbD k = ((s.reg x).getLsbD k || (s.reg y).getLsbD k)) ∧
    (∃ t b, exec (.and x y) s = .next t ∧ WroteReg x b s t ∧
      ∀ k, k < 8 → b.getLsbD k = ((s.reg x).getLsbD k && (s.reg y).getLsbD k)) ∧
    (∃ t b, exec (.xor x y) s = .next t ∧ WroteReg x b s t ∧
      ∀ k, k < 8 → b.getLsbD k = ((s.reg x).getLsbD k != (s.reg y).getLsbD k))

/-- R128: the sum modulo 256, VF the carry. That at `x = 15` the flag stays and the
result is lost (R121) is decision D8 (log 14). -/
def Obligations.AddWritesSumAndCarry : Prop :=
  ∀ (x y : RegIndex) (s : State), ∃ t b f, exec (.addReg x y) s = .next t ∧ WroteFlagged x b f s t ∧
    b.toNat = ((s.reg x).toNat + (s.reg y).toNat) % 256 ∧
    f.toNat = if (s.reg x).toNat + (s.reg y).toNat > 255 then 1 else 0

/-- R129: the difference modulo 256, VF the strict comparison. That at `x = 15` the flag stays and the
result is lost (R121) is decision D8 (log 14). -/
def Obligations.SubWritesDifferenceAndGreater : Prop :=
  ∀ (x y : RegIndex) (s : State), ∃ t b f, exec (.sub x y) s = .next t ∧ WroteFlagged x b f s t ∧
    (b.toNat + (s.reg y).toNat) % 256 = (s.reg x).toNat ∧
    f.toNat = if (s.reg x).toNat > (s.reg y).toNat then 1 else 0

/-- R131: the reverse difference modulo 256, VF the strict comparison. That at `x = 15` the flag stays and the
result is lost (R121) is decision D8 (log 14). -/
def Obligations.SubnWritesReverseDifferenceAndGreater : Prop :=
  ∀ (x y : RegIndex) (s : State), ∃ t b f, exec (.subn x y) s = .next t ∧ WroteFlagged x b f s t ∧
    (b.toNat + (s.reg x).toNat) % 256 = (s.reg y).toNat ∧
    f.toNat = if (s.reg y).toNat > (s.reg x).toNat then 1 else 0

/-- R130: `Vy` halved into `Vx`, VF the bit shifted out. That at `x = 15` the flag stays and the
result is lost (R121) is decision D8 (log 14). -/
def Obligations.ShrHalvesVyIntoVx : Prop :=
  ∀ (x y : RegIndex) (s : State), ∃ t b f, exec (.shr x y) s = .next t ∧ WroteFlagged x b f s t ∧
    b.toNat = (s.reg y).toNat / 2 ∧ f.toNat = (s.reg y).toNat % 2

/-- R132: `Vy` doubled modulo 256 into `Vx`, VF the bit shifted out. That at `x = 15` the flag stays and the
result is lost (R121) is decision D8 (log 14). -/
def Obligations.ShlDoublesVyIntoVx : Prop :=
  ∀ (x y : RegIndex) (s : State), ∃ t b f, exec (.shl x y) s = .next t ∧ WroteFlagged x b f s t ∧
    b.toNat = 2 * (s.reg y).toNat % 256 ∧ f.toNat = (s.reg y).toNat / 128

/-- R133 (decision D13): `Vx` receives the cycle's `rnd` input masked by `nn`; the input is the free value of log 1, and one more
is counted as used. -/
def Obligations.RndMasksTheInputByte : Prop :=
  ∀ (x : RegIndex) (nn : Byte) (s : State), ∃ t, exec (.rnd x nn) s = .next t ∧
    (∀ k, k < 8 → (t.reg x).getLsbD k = ((Config.rnd s.draws).getLsbD k && nn.getLsbD k)) ∧
    (∀ r, r ≠ x → t.reg r = s.reg r) ∧ t.pc = s.pc + 2#16 ∧ t.draws = s.draws + 1 ∧ SameBut [.v, .pc, .draws] s t

/-! ### Index register and memory -/

/-- R140 to R142: the three ways to set `I`, without a flag. -/
def Obligations.IndexInstructionsSetI : Prop :=
  ∀ (nnn : BitVec 12) (x : RegIndex) (s : State),
    (∃ t, exec (.ldI nnn) s = .next t ∧ t.i.toNat = nnn.toNat ∧ t.pc = s.pc + 2#16 ∧ SameBut [.i, .pc] s t) ∧
    (∃ t, exec (.addI x) s = .next t ∧ t.i.toNat = (s.i.toNat + (s.reg x).toNat) % 65536 ∧ t.pc = s.pc + 2#16 ∧
      SameBut [.i, .pc] s t) ∧
    (∃ t, exec (.ldF x) s = .next t ∧ t.i.toNat = 0x050 + 5 * (s.reg x).toNat ∧ t.pc = s.pc + 2#16 ∧
      SameBut [.i, .pc] s t)

/-- R143: the three decimal digits at `I`, `I + 1`, `I + 2`; every other byte and everything else but `pc` is unchanged. -/
def Obligations.BcdStoresThreeDigits : Prop :=
  ∀ (x : RegIndex) (s : State), Memory.wf s.mem = true → ∃ t, exec (.ldB x) s = .next t ∧
    (t.memRead s.i).toNat = (s.reg x).toNat / 100 ∧
    (t.memRead (s.i + 1#16)).toNat = (s.reg x).toNat / 10 % 10 ∧
    (t.memRead (s.i + 2#16)).toNat = (s.reg x).toNat % 10 ∧
    (∀ a : Word, (∀ k, k < 3 → a.toNat % 4096 ≠ (s.i.toNat + k) % 4096) → t.memRead a = s.memRead a) ∧
    t.pc = s.pc + 2#16 ∧ SameBut [.mem, .pc] s t

/-- R144: `V0` to `Vx` at `I` upward, byte by byte with wrap, then `I` advances by `x + 1`; every other byte and everything else
but `pc` is unchanged. -/
def Obligations.BlockStoreWritesRegistersAtI : Prop :=
  ∀ (x : RegIndex) (s : State), Memory.wf s.mem = true → ∃ t, exec (.ldMemV x) s = .next t ∧
    (∀ k : RegIndex, k.val ≤ x.val → t.memRead (s.i + BitVec.ofNat 16 k.val) = s.reg k) ∧
    (∀ a : Word, (∀ k, k ≤ x.val → a.toNat % 4096 ≠ (s.i.toNat + k) % 4096) → t.memRead a = s.memRead a) ∧
    t.i.toNat = (s.i.toNat + x.val + 1) % 65536 ∧ t.pc = s.pc + 2#16 ∧ SameBut [.mem, .i, .pc] s t

/-- R145: `V0` to `Vx` from `I` upward, byte by byte with wrap, then `I` advances by `x + 1`; the registers above and all of
memory are unchanged. -/
def Obligations.BlockLoadReadsRegistersAtI : Prop :=
  ∀ (x : RegIndex) (s : State), ∃ t, exec (.ldVMem x) s = .next t ∧
    (∀ k : RegIndex, t.reg k =
      if k.val ≤ x.val then Memory.read s.mem ((s.i.toNat + k.val) % 4096) else s.reg k) ∧
    t.i.toNat = (s.i.toNat + x.val + 1) % 65536 ∧ t.pc = s.pc + 2#16 ∧ SameBut [.v, .i, .pc] s t

/-- R144, R145: after a block store, a block load from the same `I` with the same `x` restores the registers, whatever happened
to registers and `pc` in between, and `I` ends where the store left it. -/
def Obligations.BlockStoreThenLoadRestoresRegisters : Prop :=
  ∀ (x : RegIndex) (s t t' u : State), Memory.wf s.mem = true → exec (.ldMemV x) s = .next t →
    t'.i = s.i → (∀ a, t'.memRead a = t.memRead a) → exec (.ldVMem x) t' = .next u →
    (∀ k : RegIndex, k.val ≤ x.val → u.reg k = s.reg k) ∧ u.i = t.i

/-! ### Display -/

/-- R150: every cell cleared, DIRTY set, VF not written. -/
def Obligations.ClearScreenClearsEveryCell : Prop :=
  ∀ s : State, ∃ t, exec .cls s = .next t ∧ (∀ L, L < 2048 → t.cell L = false) ∧ t.dirty = true ∧ t.pc = s.pc + 2#16 ∧
    SameBut [.fb, .dirty, .pc] s t

/-- R151 to R153 (decisions D9, D10, D11): under every `DRAW_OOB`, drawing a sprite either raises DrawOutOfBounds precisely
(under `fault`, with a set pixel of index 2048 or more), or inverts exactly the drawn cells and leaves the collision flag in VF;
`Dxyn` draws at `(Vx, Vy)` under the machine's own `DRAW_OOB` (log 2). -/
def Obligations.DrawInvertsExactlyTheDrawnCells : Prop :=
  (∀ (mode : DrawOob) (s : State) (vx vy : Byte) (n : Fin 16),
    (mode = .fault ∧ SomePixelOutside s vx vy n.val → s.drawSprite mode vx vy n.val = { s with halt := 4#3 }) ∧
    (¬ (mode = .fault ∧ SomePixelOutside s vx vy n.val) →
      DrewCells (DrawnCell mode s vx vy n.val) s (s.drawSprite mode vx vy n.val))) ∧
  ∀ (x y : RegIndex) (n : Fin 16) (s : State),
    exec (.drw x y n) s = .next (s.drawSprite drawOob (s.reg x) (s.reg y) n.val)

/-- R151, R152 case (a): when every set pixel has an index below 2048, `Dxyn` completes whatever `DRAW_OOB` is, and inverts
exactly the cells at those indices, row spill included. -/
def Obligations.DrawCompletesInsideTheFramebuffer : Prop :=
  ∀ (x y : RegIndex) (n : Fin 16) (s : State),
    (∀ L, SetPixel s (s.reg x) (s.reg y) n.val L → L < 2048) →
    ∃ t, exec (.drw x y n) s = .next t ∧ DrewCells (SetPixel s (s.reg x) (s.reg y) n.val) s t

/-- R151: drawing the same sprite twice at the same place restores the framebuffer, and the second draw reports a collision
exactly if the first turned a cell on (R154 (2); the spec's remark that it does "if the sprite has any drawn pixel" is read for
cells that were 0 before, log 13). -/
def Obligations.DrawingTwiceRestoresTheFramebuffer : Prop :=
  ∀ (mode : DrawOob) (s t u : State) (vx vy : Byte) (n : Fin 16), s.halt = 0#3 →
    t = s.drawSprite mode vx vy n.val → t.halt = 0#3 → u = t.drawSprite mode vx vy n.val →
    u.halt = 0#3 ∧ (∀ L, L < 2048 → u.cell L = s.cell L) ∧
      (u.reg 15 = 1#8 ↔ ∃ c, DrawnCell mode s vx vy n.val c ∧ s.cell c = false) ∧
      (u.reg 15 = 0#8 ↔ ∀ c, DrawnCell mode s vx vy n.val c → s.cell c = true)

/-- R154 (4): with `Vx <= 56` and `Vy + n <= 32` no pixel leaves its row or the buffer, and the result is the same for all three
values of `DRAW_OOB`. -/
def Obligations.DrawInTheSafeAreaIgnoresDrawOob : Prop :=
  ∀ (s : State) (vx vy : Byte) (n : Fin 16), vx.toNat ≤ 56 → vy.toNat + n.val ≤ 32 →
    (∀ L, SetPixel s vx vy n.val L → L < 2048 ∧ vx.toNat ≤ L % 64 ∧ vy.toNat ≤ L / 64 ∧ L / 64 < vy.toNat + n.val) ∧
    ∀ mode mode' : DrawOob, s.drawSprite mode vx vy n.val = s.drawSprite mode' vx vy n.val

/-! ### Keypad and timers -/

/-- R163 (decision D23 on the snapshot): with no key pressed nothing changes; else `Vx` receives the highest pressed key. -/
def Obligations.WaitForKeyTakesTheHighestKey : Prop :=
  ∀ (x : RegIndex) (s : State),
    ((∀ k, s.key k = false) → exec (.ldVxK x) s = .next s) ∧
    (∀ k : Fin 16, s.key k = true → (∀ j, s.key j = true → j.val ≤ k.val) →
      ∃ t b, exec (.ldVxK x) s = .next t ∧ b.toNat = k.val ∧ WroteReg x b s t)

/-- R164 to R166: read DT before the tick, set DT, set ST. -/
def Obligations.TimerInstructionsMoveTheTimers : Prop :=
  ∀ (x : RegIndex) (s : State),
    (∃ t, exec (.ldVxDt x) s = .next t ∧ WroteReg x s.dt s t) ∧
    (∃ t, exec (.ldDtVx x) s = .next t ∧ t.dt = s.reg x ∧ t.pc = s.pc + 2#16 ∧ SameBut [.dt, .pc] s t) ∧
    (∃ t, exec (.ldStVx x) s = .next t ∧ t.st = s.reg x ∧ t.pc = s.pc + 2#16 ∧ SameBut [.st, .pc] s t)

/-- R165, R166: the cycle that sets a timer ticks it: DT and ST end one below `Vx`, at 0 for 0, and setting ST to 1 beeps in that
very cycle (decision D2: the tick is part of the cycle). -/
def Obligations.SettingATimerTicksItInTheSameCycle : Prop :=
  ∀ (x : RegIndex) (s : State), s.halt = 0#3 →
    (decodeWord s.fetch = some (.ldDtVx x) → ∃ r, cycle s = .next r ∧ r.state.dt.toNat = (s.reg x).toNat - 1 ∧
      r.status = .progress) ∧
    (decodeWord s.fetch = some (.ldStVx x) → ∃ r, cycle s = .next r ∧ r.state.st.toNat = (s.reg x).toNat - 1 ∧
      r.status = .progress ∧ (r.beep = true ↔ (s.reg x).toNat = 1))

/-! ### Host operations -/

/-- R191 (decision D20): an image of at most 3584 bytes goes verbatim to 0x200 and nothing else changes; a longer one is turned
away with nothing changed. -/
def Obligations.LoadCopiesTheImageOrNothing : Prop :=
  ∀ (img : List Byte) (s : State), Memory.wf s.mem = true →
    (img.length ≤ 3584 → ∃ t, perform (.load img) s = .next (t, .load .ok) ∧
      (∀ (k : Nat) (hk : k < img.length), Memory.read t.mem (0x200 + k) = img[k]) ∧
      (∀ a, a < 4096 → a < 0x200 ∨ 0x200 + img.length ≤ a → Memory.read t.mem a = Memory.read s.mem a) ∧
      SameBut [.mem] s t) ∧
    (3584 < img.length → perform (.load img) s = .next (s, .load .capacityExceeded))

/-- R193: after Reset and Load, whatever went before, the first cycle begins at 0x200 with the image there and zeros after it, the
font in place (log 3), zeros in the rest of memory, and everything else as Reset leaves it; the count of used `rnd` inputs, the
model's own field, goes on (log 1). -/
def Obligations.ProgramStartsFromResetAndLoad : Prop :=
  ∀ (img : List Byte) (s : State), img.length ≤ 3584 →
    ∃ t u, perform .reset s = .next (t, .none) ∧ perform (.load img) t = .next (u, .load .ok) ∧
      u.pc.toNat = 0x200 ∧ (∀ x, u.reg x = 0) ∧ u.i = 0 ∧ u.sp = 0 ∧ (∀ k, u.stackCell k = 0) ∧ u.dt = 0 ∧ u.st = 0 ∧
      (∀ k, u.key k = false) ∧ (∀ L, L < 2048 → u.cell L = false) ∧ u.dirty = false ∧ u.halt = 0#3 ∧
      (∀ k, k < 3584 → Memory.read u.mem (0x200 + k) = img.getD k 0) ∧
      (∀ k, k ≤ 79 → Memory.read u.mem (0x050 + k) = fontByte k) ∧
      (∀ a, a < 0x050 → Memory.read u.mem a = 0) ∧ (∀ a, 0x0A0 ≤ a → a < 0x200 → Memory.read u.mem a = 0) ∧
      SameBut [.mem, .draws] State.reset u ∧ u.draws = s.draws

/-- R183: SetKey writes one cell of the keypad; an index of 16 or more changes nothing and answers BadKeyIndex. -/
def Obligations.SetKeyWritesOneCell : Prop :=
  ∀ (index : Nat) (pressed : Bool) (s : State),
    (index ≤ 15 → ∃ t, perform (.setKey index pressed) s = .next (t, .setKey .ok) ∧
      (∀ k : Fin 16, t.key k = if k.val = index then pressed else s.key k) ∧ SameBut [.keys] s t) ∧
    (16 ≤ index → perform (.setKey index pressed) s = .next (s, .setKey .badKeyIndex))

/-- R185, R186: ReadFramebuffer returns all cells and DIRTY and changes nothing; ClearDirty clears DIRTY and changes nothing
else. -/
def Obligations.FramebufferIsReadAndDirtyCleared : Prop :=
  ∀ s : State,
    (∃ fb, perform .readFramebuffer s = .next (s, .framebuffer fb s.dirty) ∧ ∀ L, L < 2048 → fb.getLsbD L = s.cell L) ∧
    (∃ t, perform .clearDirty s = .next (t, .none) ∧ t.dirty = false ∧ SameBut [.dirty] s t)
end

