-- ==== Sys2Proof/Laws/Decode.lean ====
section
/-! SUPPORT. The fields of an encoded word are the operands it was made of, a word is made of its fields, and a word is made
of its two bytes. Fields and words are compared as numbers. -/

namespace Sys2Proof

/-! ### Fields and formats as numbers -/

/-- A concatenation as a number (00_scope.md R8). -/
theorem append_toNat {m n : Nat} (a : BitVec m) (b : BitVec n) : (a ++ b).toNat = 2 ^ n * a.toNat + b.toNat := by
  rw [BitVec.toNat_append, ← Nat.shiftLeft_add_eq_or_of_lt b.isLt, Nat.shiftLeft_eq, Nat.mul_comm]

theorem opT_toNat (w : Word) : (opT w).toNat = w.toNat / 4096 := by
  have := w.isLt
  simp only [opT, BitVec.extractLsb'_toNat, Nat.shiftRight_eq_div_pow]; omega

theorem opX_val (w : Word) : (opX w).val = w.toNat / 256 % 16 := by
  change (w.extractLsb' 8 4).toNat = _
  simp only [BitVec.extractLsb'_toNat, Nat.shiftRight_eq_div_pow]

theorem opY_val (w : Word) : (opY w).val = w.toNat / 16 % 16 := by
  change (w.extractLsb' 4 4).toNat = _
  simp only [BitVec.extractLsb'_toNat, Nat.shiftRight_eq_div_pow]

theorem opN_toNat (w : Word) : (opN w).toNat = w.toNat % 16 := by
  simp only [opN, BitVec.extractLsb'_toNat, Nat.shiftRight_zero]

theorem opNN_toNat (w : Word) : (opNN w).toNat = w.toNat % 256 := by
  simp only [opNN, BitVec.extractLsb'_toNat, Nat.shiftRight_zero]

theorem opNNN_toNat (w : Word) : (opNNN w).toNat = w.toNat % 4096 := by
  simp only [opNNN, BitVec.extractLsb'_toNat, Nat.shiftRight_zero]

theorem encNNN_toNat (t : BitVec 4) (nnn : BitVec 12) : (encNNN t nnn).toNat = 4096 * t.toNat + nnn.toNat :=
  append_toNat t nnn

theorem encXNN_toNat (t : BitVec 4) (x : RegIndex) (nn : Byte) :
    (encXNN t x nn).toNat = 4096 * t.toNat + 256 * x.val + nn.toNat := by
  have h : (encXNN t x nn).toNat = 2 ^ 8 * (t ++ nibble x).toNat + nn.toNat := append_toNat _ _
  have h' : (t ++ nibble x).toNat = 2 ^ 4 * t.toNat + x.val := append_toNat _ _
  omega

theorem encXYN_toNat (t : BitVec 4) (x y : RegIndex) (n : BitVec 4) :
    (encXYN t x y n).toNat = 4096 * t.toNat + 256 * x.val + 16 * y.val + n.toNat := by
  have h : (encXYN t x y n).toNat = 2 ^ 4 * (t ++ nibble x ++ nibble y).toNat + n.toNat := append_toNat _ _
  have h' : (t ++ nibble x ++ nibble y).toNat = 2 ^ 4 * (t ++ nibble x).toNat + y.val := append_toNat _ _
  have h'' : (t ++ nibble x).toNat = 2 ^ 4 * t.toNat + x.val := append_toNat _ _
  omega

/-! ### Fields of an encoded word -/

@[simp] theorem opT_encNNN (t : BitVec 4) (nnn : BitVec 12) : opT (encNNN t nnn) = t := by
  apply BitVec.eq_of_toNat_eq; rw [opT_toNat, encNNN_toNat]; omega

@[simp] theorem opNNN_encNNN (t : BitVec 4) (nnn : BitVec 12) : opNNN (encNNN t nnn) = nnn := by
  apply BitVec.eq_of_toNat_eq; rw [opNNN_toNat, encNNN_toNat]; omega

@[simp] theorem opT_encXNN (t : BitVec 4) (x : RegIndex) (nn : Byte) : opT (encXNN t x nn) = t := by
  apply BitVec.eq_of_toNat_eq; rw [opT_toNat, encXNN_toNat]; omega

@[simp] theorem opX_encXNN (t : BitVec 4) (x : RegIndex) (nn : Byte) : opX (encXNN t x nn) = x := by
  apply Fin.ext; rw [opX_val, encXNN_toNat]; omega

@[simp] theorem opNN_encXNN (t : BitVec 4) (x : RegIndex) (nn : Byte) : opNN (encXNN t x nn) = nn := by
  apply BitVec.eq_of_toNat_eq; rw [opNN_toNat, encXNN_toNat]; omega

@[simp] theorem opT_encXYN (t : BitVec 4) (x y : RegIndex) (n : BitVec 4) : opT (encXYN t x y n) = t := by
  apply BitVec.eq_of_toNat_eq; rw [opT_toNat, encXYN_toNat]; omega

@[simp] theorem opX_encXYN (t : BitVec 4) (x y : RegIndex) (n : BitVec 4) : opX (encXYN t x y n) = x := by
  apply Fin.ext; rw [opX_val, encXYN_toNat]; omega

@[simp] theorem opY_encXYN (t : BitVec 4) (x y : RegIndex) (n : BitVec 4) : opY (encXYN t x y n) = y := by
  apply Fin.ext; rw [opY_val, encXYN_toNat]; omega

@[simp] theorem opN_encXYN (t : BitVec 4) (x y : RegIndex) (n : BitVec 4) : opN (encXYN t x y n) = n := by
  apply BitVec.eq_of_toNat_eq; rw [opN_toNat, encXYN_toNat]; omega

@[simp] theorem toFin_nibble (n : Fin 16) : (nibble n).toFin = n := rfl

@[simp] theorem nibble_toFin (n : BitVec 4) : nibble n.toFin = n := rfl

/-! ### A word from its fields -/

theorem encNNN_fields (w : Word) : encNNN (opT w) (opNNN w) = w := by
  apply BitVec.eq_of_toNat_eq; rw [encNNN_toNat, opT_toNat, opNNN_toNat]; omega

theorem encXNN_fields (w : Word) : encXNN (opT w) (opX w) (opNN w) = w := by
  apply BitVec.eq_of_toNat_eq; rw [encXNN_toNat, opT_toNat, opX_val, opNN_toNat]; omega

theorem encXYN_fields (w : Word) : encXYN (opT w) (opX w) (opY w) (opN w) = w := by
  apply BitVec.eq_of_toNat_eq; rw [encXYN_toNat, opT_toNat, opX_val, opY_val, opN_toNat]; omega

/-! ### A word and its two bytes -/

/-- The composed word as a number (20_memory.md R54). -/
theorem composeWord_toNat (h l : Byte) : (composeWord h l).toNat = 256 * h.toNat + l.toNat := append_toNat h l

theorem highByte_toNat (w : Word) : (highByte w).toNat = w.toNat / 256 := by
  have := w.isLt
  simp only [highByte, BitVec.extractLsb'_toNat, Nat.shiftRight_eq_div_pow]; omega

theorem lowByte_toNat (w : Word) : (lowByte w).toNat = w.toNat % 256 := by
  simp only [lowByte, BitVec.extractLsb'_toNat, Nat.shiftRight_zero]

@[simp] theorem composeWord_bytes (w : Word) : composeWord (highByte w) (lowByte w) = w := by
  apply BitVec.eq_of_toNat_eq; rw [composeWord_toNat, highByte_toNat, lowByte_toNat]; omega

@[simp] theorem highByte_composeWord (h l : Byte) : highByte (composeWord h l) = h := by
  apply BitVec.eq_of_toNat_eq; rw [highByte_toNat, composeWord_toNat]; omega

@[simp] theorem lowByte_composeWord (h l : Byte) : lowByte (composeWord h l) = l := by
  apply BitVec.eq_of_toNat_eq; rw [lowByte_toNat, composeWord_toNat]; omega

/-- What decoding gives depends on the first two bytes only, as the word they compose. -/
theorem decodeBytes_cons (h l : Byte) (rest : List Byte) (i : Instr) (r : List Byte) :
    decodeBytes (h :: l :: rest) = .instr i r ↔ decodeWord (composeWord h l) = some i ∧ r = rest := by
  cases hd : decodeWord (composeWord h l) <;> simp [decodeBytes, hd, eq_comm]

end Sys2Proof
end

