-- ==== Sys2Proof/Laws/State.lean ====
section
/-! SUPPORT. What each update of the state leaves in each field, true by definition, so that no later proof unfolds a record
update. Register reads after register writes stand at the end. -/

namespace Sys2Proof.Machine.State

variable (s : State)

/-! ### setReg -/

@[simp] theorem setReg_i (x : RegIndex) (b : Byte) : (s.setReg x b).i = s.i := rfl
@[simp] theorem setReg_pc (x : RegIndex) (b : Byte) : (s.setReg x b).pc = s.pc := rfl
@[simp] theorem setReg_sp (x : RegIndex) (b : Byte) : (s.setReg x b).sp = s.sp := rfl
@[simp] theorem setReg_stack (x : RegIndex) (b : Byte) : (s.setReg x b).stack = s.stack := rfl
@[simp] theorem setReg_dt (x : RegIndex) (b : Byte) : (s.setReg x b).dt = s.dt := rfl
@[simp] theorem setReg_st (x : RegIndex) (b : Byte) : (s.setReg x b).st = s.st := rfl
@[simp] theorem setReg_keys (x : RegIndex) (b : Byte) : (s.setReg x b).keys = s.keys := rfl
@[simp] theorem setReg_fb (x : RegIndex) (b : Byte) : (s.setReg x b).fb = s.fb := rfl
@[simp] theorem setReg_dirty (x : RegIndex) (b : Byte) : (s.setReg x b).dirty = s.dirty := rfl
@[simp] theorem setReg_halt (x : RegIndex) (b : Byte) : (s.setReg x b).halt = s.halt := rfl
@[simp] theorem setReg_mem (x : RegIndex) (b : Byte) : (s.setReg x b).mem = s.mem := rfl
@[simp] theorem setReg_draws (x : RegIndex) (b : Byte) : (s.setReg x b).draws = s.draws := rfl

/-! ### setFlagged -/

@[simp] theorem setFlagged_i (x : RegIndex) (b f : Byte) : (s.setFlagged x b f).i = s.i := rfl
@[simp] theorem setFlagged_pc (x : RegIndex) (b f : Byte) : (s.setFlagged x b f).pc = s.pc := rfl
@[simp] theorem setFlagged_sp (x : RegIndex) (b f : Byte) : (s.setFlagged x b f).sp = s.sp := rfl
@[simp] theorem setFlagged_stack (x : RegIndex) (b f : Byte) : (s.setFlagged x b f).stack = s.stack := rfl
@[simp] theorem setFlagged_dt (x : RegIndex) (b f : Byte) : (s.setFlagged x b f).dt = s.dt := rfl
@[simp] theorem setFlagged_st (x : RegIndex) (b f : Byte) : (s.setFlagged x b f).st = s.st := rfl
@[simp] theorem setFlagged_keys (x : RegIndex) (b f : Byte) : (s.setFlagged x b f).keys = s.keys := rfl
@[simp] theorem setFlagged_fb (x : RegIndex) (b f : Byte) : (s.setFlagged x b f).fb = s.fb := rfl
@[simp] theorem setFlagged_dirty (x : RegIndex) (b f : Byte) : (s.setFlagged x b f).dirty = s.dirty := rfl
@[simp] theorem setFlagged_halt (x : RegIndex) (b f : Byte) : (s.setFlagged x b f).halt = s.halt := rfl
@[simp] theorem setFlagged_mem (x : RegIndex) (b f : Byte) : (s.setFlagged x b f).mem = s.mem := rfl
@[simp] theorem setFlagged_draws (x : RegIndex) (b f : Byte) : (s.setFlagged x b f).draws = s.draws := rfl

/-! ### setI -/

@[simp] theorem setI_v (a : Word) : (s.setI a).v = s.v := rfl
@[simp] theorem setI_i (a : Word) : (s.setI a).i = a := rfl
@[simp] theorem setI_pc (a : Word) : (s.setI a).pc = s.pc := rfl
@[simp] theorem setI_sp (a : Word) : (s.setI a).sp = s.sp := rfl
@[simp] theorem setI_stack (a : Word) : (s.setI a).stack = s.stack := rfl
@[simp] theorem setI_dt (a : Word) : (s.setI a).dt = s.dt := rfl
@[simp] theorem setI_st (a : Word) : (s.setI a).st = s.st := rfl
@[simp] theorem setI_keys (a : Word) : (s.setI a).keys = s.keys := rfl
@[simp] theorem setI_fb (a : Word) : (s.setI a).fb = s.fb := rfl
@[simp] theorem setI_dirty (a : Word) : (s.setI a).dirty = s.dirty := rfl
@[simp] theorem setI_halt (a : Word) : (s.setI a).halt = s.halt := rfl
@[simp] theorem setI_mem (a : Word) : (s.setI a).mem = s.mem := rfl
@[simp] theorem setI_draws (a : Word) : (s.setI a).draws = s.draws := rfl

/-! ### jump -/

@[simp] theorem jump_v (a : Word) : (s.jump a).v = s.v := rfl
@[simp] theorem jump_i (a : Word) : (s.jump a).i = s.i := rfl
@[simp] theorem jump_pc (a : Word) : (s.jump a).pc = a := rfl
@[simp] theorem jump_sp (a : Word) : (s.jump a).sp = s.sp := rfl
@[simp] theorem jump_stack (a : Word) : (s.jump a).stack = s.stack := rfl
@[simp] theorem jump_dt (a : Word) : (s.jump a).dt = s.dt := rfl
@[simp] theorem jump_st (a : Word) : (s.jump a).st = s.st := rfl
@[simp] theorem jump_keys (a : Word) : (s.jump a).keys = s.keys := rfl
@[simp] theorem jump_fb (a : Word) : (s.jump a).fb = s.fb := rfl
@[simp] theorem jump_dirty (a : Word) : (s.jump a).dirty = s.dirty := rfl
@[simp] theorem jump_halt (a : Word) : (s.jump a).halt = s.halt := rfl
@[simp] theorem jump_mem (a : Word) : (s.jump a).mem = s.mem := rfl
@[simp] theorem jump_draws (a : Word) : (s.jump a).draws = s.draws := rfl

/-! ### advance -/

@[simp] theorem advance_v : (s.advance).v = s.v := rfl
@[simp] theorem advance_i : (s.advance).i = s.i := rfl
@[simp] theorem advance_pc : (s.advance).pc = s.pc + 2#16 := rfl
@[simp] theorem advance_sp : (s.advance).sp = s.sp := rfl
@[simp] theorem advance_stack : (s.advance).stack = s.stack := rfl
@[simp] theorem advance_dt : (s.advance).dt = s.dt := rfl
@[simp] theorem advance_st : (s.advance).st = s.st := rfl
@[simp] theorem advance_keys : (s.advance).keys = s.keys := rfl
@[simp] theorem advance_fb : (s.advance).fb = s.fb := rfl
@[simp] theorem advance_dirty : (s.advance).dirty = s.dirty := rfl
@[simp] theorem advance_halt : (s.advance).halt = s.halt := rfl
@[simp] theorem advance_mem : (s.advance).mem = s.mem := rfl
@[simp] theorem advance_draws : (s.advance).draws = s.draws := rfl

/-! ### skipIf -/

@[simp] theorem skipIf_v (c : Bool) : (s.skipIf c).v = s.v := rfl
@[simp] theorem skipIf_i (c : Bool) : (s.skipIf c).i = s.i := rfl
@[simp] theorem skipIf_pc (c : Bool) : (s.skipIf c).pc = if c then s.pc + 4#16 else s.pc + 2#16 := rfl
@[simp] theorem skipIf_sp (c : Bool) : (s.skipIf c).sp = s.sp := rfl
@[simp] theorem skipIf_stack (c : Bool) : (s.skipIf c).stack = s.stack := rfl
@[simp] theorem skipIf_dt (c : Bool) : (s.skipIf c).dt = s.dt := rfl
@[simp] theorem skipIf_st (c : Bool) : (s.skipIf c).st = s.st := rfl
@[simp] theorem skipIf_keys (c : Bool) : (s.skipIf c).keys = s.keys := rfl
@[simp] theorem skipIf_fb (c : Bool) : (s.skipIf c).fb = s.fb := rfl
@[simp] theorem skipIf_dirty (c : Bool) : (s.skipIf c).dirty = s.dirty := rfl
@[simp] theorem skipIf_halt (c : Bool) : (s.skipIf c).halt = s.halt := rfl
@[simp] theorem skipIf_mem (c : Bool) : (s.skipIf c).mem = s.mem := rfl
@[simp] theorem skipIf_draws (c : Bool) : (s.skipIf c).draws = s.draws := rfl

/-! ### raise -/

@[simp] theorem raise_v (c : Condition) : (s.raise c).v = s.v := rfl
@[simp] theorem raise_i (c : Condition) : (s.raise c).i = s.i := rfl
@[simp] theorem raise_pc (c : Condition) : (s.raise c).pc = s.pc := rfl
@[simp] theorem raise_sp (c : Condition) : (s.raise c).sp = s.sp := rfl
@[simp] theorem raise_stack (c : Condition) : (s.raise c).stack = s.stack := rfl
@[simp] theorem raise_dt (c : Condition) : (s.raise c).dt = s.dt := rfl
@[simp] theorem raise_st (c : Condition) : (s.raise c).st = s.st := rfl
@[simp] theorem raise_keys (c : Condition) : (s.raise c).keys = s.keys := rfl
@[simp] theorem raise_fb (c : Condition) : (s.raise c).fb = s.fb := rfl
@[simp] theorem raise_dirty (c : Condition) : (s.raise c).dirty = s.dirty := rfl
@[simp] theorem raise_halt (c : Condition) : (s.raise c).halt = c.code := rfl
@[simp] theorem raise_mem (c : Condition) : (s.raise c).mem = s.mem := rfl
@[simp] theorem raise_draws (c : Condition) : (s.raise c).draws = s.draws := rfl

/-! ### memWrite -/

@[simp] theorem memWrite_v (a : Word) (b : Byte) : (s.memWrite a b).v = s.v := rfl
@[simp] theorem memWrite_i (a : Word) (b : Byte) : (s.memWrite a b).i = s.i := rfl
@[simp] theorem memWrite_pc (a : Word) (b : Byte) : (s.memWrite a b).pc = s.pc := rfl
@[simp] theorem memWrite_sp (a : Word) (b : Byte) : (s.memWrite a b).sp = s.sp := rfl
@[simp] theorem memWrite_stack (a : Word) (b : Byte) : (s.memWrite a b).stack = s.stack := rfl
@[simp] theorem memWrite_dt (a : Word) (b : Byte) : (s.memWrite a b).dt = s.dt := rfl
@[simp] theorem memWrite_st (a : Word) (b : Byte) : (s.memWrite a b).st = s.st := rfl
@[simp] theorem memWrite_keys (a : Word) (b : Byte) : (s.memWrite a b).keys = s.keys := rfl
@[simp] theorem memWrite_fb (a : Word) (b : Byte) : (s.memWrite a b).fb = s.fb := rfl
@[simp] theorem memWrite_dirty (a : Word) (b : Byte) : (s.memWrite a b).dirty = s.dirty := rfl
@[simp] theorem memWrite_halt (a : Word) (b : Byte) : (s.memWrite a b).halt = s.halt := rfl
@[simp] theorem memWrite_mem (a : Word) (b : Byte) : (s.memWrite a b).mem = Memory.write s.mem (xlate a) b := rfl
@[simp] theorem memWrite_draws (a : Word) (b : Byte) : (s.memWrite a b).draws = s.draws := rfl

/-! ### loadRegs -/

@[simp] theorem loadRegs_i (a : Word) (x : RegIndex) : (s.loadRegs a x).i = s.i := by simp only [loadRegs]
@[simp] theorem loadRegs_pc (a : Word) (x : RegIndex) : (s.loadRegs a x).pc = s.pc := by simp only [loadRegs]
@[simp] theorem loadRegs_sp (a : Word) (x : RegIndex) : (s.loadRegs a x).sp = s.sp := by simp only [loadRegs]
@[simp] theorem loadRegs_stack (a : Word) (x : RegIndex) : (s.loadRegs a x).stack = s.stack := by simp only [loadRegs]
@[simp] theorem loadRegs_dt (a : Word) (x : RegIndex) : (s.loadRegs a x).dt = s.dt := by simp only [loadRegs]
@[simp] theorem loadRegs_st (a : Word) (x : RegIndex) : (s.loadRegs a x).st = s.st := by simp only [loadRegs]
@[simp] theorem loadRegs_keys (a : Word) (x : RegIndex) : (s.loadRegs a x).keys = s.keys := by simp only [loadRegs]
@[simp] theorem loadRegs_fb (a : Word) (x : RegIndex) : (s.loadRegs a x).fb = s.fb := by simp only [loadRegs]
@[simp] theorem loadRegs_dirty (a : Word) (x : RegIndex) : (s.loadRegs a x).dirty = s.dirty := by simp only [loadRegs]
@[simp] theorem loadRegs_halt (a : Word) (x : RegIndex) : (s.loadRegs a x).halt = s.halt := by simp only [loadRegs]
@[simp] theorem loadRegs_mem (a : Word) (x : RegIndex) : (s.loadRegs a x).mem = s.mem := by simp only [loadRegs]
@[simp] theorem loadRegs_draws (a : Word) (x : RegIndex) : (s.loadRegs a x).draws = s.draws := by simp only [loadRegs]

/-! ### tick -/

@[simp] theorem tick_v : (s.tick).v = s.v := rfl
@[simp] theorem tick_i : (s.tick).i = s.i := rfl
@[simp] theorem tick_pc : (s.tick).pc = s.pc := rfl
@[simp] theorem tick_sp : (s.tick).sp = s.sp := rfl
@[simp] theorem tick_stack : (s.tick).stack = s.stack := rfl
@[simp] theorem tick_dt : (s.tick).dt = tickTimer s.dt := rfl
@[simp] theorem tick_st : (s.tick).st = tickTimer s.st := rfl
@[simp] theorem tick_keys : (s.tick).keys = s.keys := rfl
@[simp] theorem tick_fb : (s.tick).fb = s.fb := rfl
@[simp] theorem tick_dirty : (s.tick).dirty = s.dirty := rfl
@[simp] theorem tick_halt : (s.tick).halt = s.halt := rfl
@[simp] theorem tick_mem : (s.tick).mem = s.mem := rfl
@[simp] theorem tick_draws : (s.tick).draws = s.draws := rfl

/-! ### useRnd -/

@[simp] theorem useRnd_v : (s.useRnd).v = s.v := rfl
@[simp] theorem useRnd_i : (s.useRnd).i = s.i := rfl
@[simp] theorem useRnd_pc : (s.useRnd).pc = s.pc := rfl
@[simp] theorem useRnd_sp : (s.useRnd).sp = s.sp := rfl
@[simp] theorem useRnd_stack : (s.useRnd).stack = s.stack := rfl
@[simp] theorem useRnd_dt : (s.useRnd).dt = s.dt := rfl
@[simp] theorem useRnd_st : (s.useRnd).st = s.st := rfl
@[simp] theorem useRnd_keys : (s.useRnd).keys = s.keys := rfl
@[simp] theorem useRnd_fb : (s.useRnd).fb = s.fb := rfl
@[simp] theorem useRnd_dirty : (s.useRnd).dirty = s.dirty := rfl
@[simp] theorem useRnd_halt : (s.useRnd).halt = s.halt := rfl
@[simp] theorem useRnd_mem : (s.useRnd).mem = s.mem := rfl
@[simp] theorem useRnd_draws : (s.useRnd).draws = s.draws + 1 := rfl

/-! ### loadRnd -/

@[simp] theorem loadRnd_i (b : Byte) (x : RegIndex) (nn : Byte) : (s.loadRnd b x nn).i = s.i := rfl
@[simp] theorem loadRnd_pc (b : Byte) (x : RegIndex) (nn : Byte) : (s.loadRnd b x nn).pc = s.pc + 2#16 := rfl
@[simp] theorem loadRnd_sp (b : Byte) (x : RegIndex) (nn : Byte) : (s.loadRnd b x nn).sp = s.sp := rfl
@[simp] theorem loadRnd_stack (b : Byte) (x : RegIndex) (nn : Byte) : (s.loadRnd b x nn).stack = s.stack := rfl
@[simp] theorem loadRnd_dt (b : Byte) (x : RegIndex) (nn : Byte) : (s.loadRnd b x nn).dt = s.dt := rfl
@[simp] theorem loadRnd_st (b : Byte) (x : RegIndex) (nn : Byte) : (s.loadRnd b x nn).st = s.st := rfl
@[simp] theorem loadRnd_keys (b : Byte) (x : RegIndex) (nn : Byte) : (s.loadRnd b x nn).keys = s.keys := rfl
@[simp] theorem loadRnd_fb (b : Byte) (x : RegIndex) (nn : Byte) : (s.loadRnd b x nn).fb = s.fb := rfl
@[simp] theorem loadRnd_dirty (b : Byte) (x : RegIndex) (nn : Byte) : (s.loadRnd b x nn).dirty = s.dirty := rfl
@[simp] theorem loadRnd_halt (b : Byte) (x : RegIndex) (nn : Byte) : (s.loadRnd b x nn).halt = s.halt := rfl
@[simp] theorem loadRnd_mem (b : Byte) (x : RegIndex) (nn : Byte) : (s.loadRnd b x nn).mem = s.mem := rfl
@[simp] theorem loadRnd_draws (b : Byte) (x : RegIndex) (nn : Byte) : (s.loadRnd b x nn).draws = s.draws := rfl

/-! ### commitCanvas -/

@[simp] theorem commitCanvas_i (c : Canvas) : (s.commitCanvas c).i = s.i := rfl
@[simp] theorem commitCanvas_pc (c : Canvas) : (s.commitCanvas c).pc = s.pc + 2#16 := rfl
@[simp] theorem commitCanvas_sp (c : Canvas) : (s.commitCanvas c).sp = s.sp := rfl
@[simp] theorem commitCanvas_stack (c : Canvas) : (s.commitCanvas c).stack = s.stack := rfl
@[simp] theorem commitCanvas_dt (c : Canvas) : (s.commitCanvas c).dt = s.dt := rfl
@[simp] theorem commitCanvas_st (c : Canvas) : (s.commitCanvas c).st = s.st := rfl
@[simp] theorem commitCanvas_keys (c : Canvas) : (s.commitCanvas c).keys = s.keys := rfl
@[simp] theorem commitCanvas_fb (c : Canvas) : (s.commitCanvas c).fb = c.fb := rfl
@[simp] theorem commitCanvas_dirty (c : Canvas) : (s.commitCanvas c).dirty = true := rfl
@[simp] theorem commitCanvas_halt (c : Canvas) : (s.commitCanvas c).halt = s.halt := rfl
@[simp] theorem commitCanvas_mem (c : Canvas) : (s.commitCanvas c).mem = s.mem := rfl
@[simp] theorem commitCanvas_draws (c : Canvas) : (s.commitCanvas c).draws = s.draws := rfl

/-! ### Register reads -/

/-- Reading a register after a register write. -/
@[simp] theorem reg_setReg (x : RegIndex) (b : Byte) (r : RegIndex) :
    (s.setReg x b).reg r = if r = x then b else s.reg r := by
  simp only [reg, setReg, Vector.getElem_set, Fin.ext_iff]
  split <;> split <;> simp_all

/-- Reading a register after a flag-writing update: the flag wins in VF. -/
@[simp] theorem reg_setFlagged (x : RegIndex) (b f : Byte) (r : RegIndex) :
    (s.setFlagged x b f).reg r = if r = 15 then f else if r = x then b else s.reg r := by
  simp only [setFlagged, reg_setReg, VF]

@[simp] theorem reg_setI (a : Word) (r : RegIndex) : (s.setI a).reg r = s.reg r := rfl
@[simp] theorem reg_jump (a : Word) (r : RegIndex) : (s.jump a).reg r = s.reg r := rfl
@[simp] theorem reg_advance (r : RegIndex) : (s.advance).reg r = s.reg r := rfl
@[simp] theorem reg_skipIf (c : Bool) (r : RegIndex) : (s.skipIf c).reg r = s.reg r := rfl
@[simp] theorem reg_raise (c : Condition) (r : RegIndex) : (s.raise c).reg r = s.reg r := rfl
@[simp] theorem reg_memWrite (a : Word) (b : Byte) (r : RegIndex) : (s.memWrite a b).reg r = s.reg r := rfl
@[simp] theorem reg_tick (r : RegIndex) : (s.tick).reg r = s.reg r := rfl
@[simp] theorem reg_useRnd (r : RegIndex) : (s.useRnd).reg r = s.reg r := rfl

/-- Reading a register after a block load. -/
@[simp] theorem reg_loadRegs (a : Word) (x r : RegIndex) :
    (s.loadRegs a x).reg r = if r.val ≤ x.val then s.memRead (a + BitVec.ofNat 16 r.val) else s.reg r := by
  simp [reg, loadRegs]

/-- Two states with the same registers, read one by one, have the same register file. -/
theorem v_eq_of_reg {s t : State} (h : ∀ r : RegIndex, t.reg r = s.reg r) : t.v = s.v :=
  Vector.ext fun k hk => h ⟨k, hk⟩

/-! ### Memory reads of updates that do not touch memory -/

@[simp] theorem memRead_setReg (x : RegIndex) (b : Byte) (p : Word) : (s.setReg x b).memRead p = s.memRead p := rfl
@[simp] theorem memRead_setFlagged (x : RegIndex) (b f : Byte) (p : Word) : (s.setFlagged x b f).memRead p = s.memRead p := rfl
@[simp] theorem memRead_setI (a : Word) (p : Word) : (s.setI a).memRead p = s.memRead p := rfl
@[simp] theorem memRead_jump (a : Word) (p : Word) : (s.jump a).memRead p = s.memRead p := rfl
@[simp] theorem memRead_advance (p : Word) : (s.advance).memRead p = s.memRead p := rfl
@[simp] theorem memRead_skipIf (c : Bool) (p : Word) : (s.skipIf c).memRead p = s.memRead p := rfl
@[simp] theorem memRead_raise (c : Condition) (p : Word) : (s.raise c).memRead p = s.memRead p := rfl
@[simp] theorem memRead_loadRegs (a : Word) (x : RegIndex) (p : Word) : (s.loadRegs a x).memRead p = s.memRead p := by simp only [memRead, loadRegs]
@[simp] theorem memRead_tick (p : Word) : (s.tick).memRead p = s.memRead p := rfl
@[simp] theorem memRead_useRnd (p : Word) : (s.useRnd).memRead p = s.memRead p := rfl
@[simp] theorem memRead_loadRnd (b : Byte) (x : RegIndex) (nn : Byte) (p : Word) : (s.loadRnd b x nn).memRead p = s.memRead p := rfl
@[simp] theorem memRead_commitCanvas (c : Canvas) (p : Word) : (s.commitCanvas c).memRead p = s.memRead p := rfl

/-! ### `stackCell` of updates that do not touch it -/

@[simp] theorem stackCell_setReg (x : RegIndex) (b : Byte) (k : Fin 16) : (s.setReg x b).stackCell k = s.stackCell k := rfl
@[simp] theorem stackCell_setFlagged (x : RegIndex) (b f : Byte) (k : Fin 16) : (s.setFlagged x b f).stackCell k = s.stackCell k := rfl
@[simp] theorem stackCell_setI (a : Word) (k : Fin 16) : (s.setI a).stackCell k = s.stackCell k := rfl
@[simp] theorem stackCell_jump (a : Word) (k : Fin 16) : (s.jump a).stackCell k = s.stackCell k := rfl
@[simp] theorem stackCell_advance (k : Fin 16) : (s.advance).stackCell k = s.stackCell k := rfl
@[simp] theorem stackCell_skipIf (c : Bool) (k : Fin 16) : (s.skipIf c).stackCell k = s.stackCell k := rfl
@[simp] theorem stackCell_raise (c : Condition) (k : Fin 16) : (s.raise c).stackCell k = s.stackCell k := rfl
@[simp] theorem stackCell_memWrite (a : Word) (b : Byte) (k : Fin 16) : (s.memWrite a b).stackCell k = s.stackCell k := rfl
@[simp] theorem stackCell_loadRegs (a : Word) (x : RegIndex) (k : Fin 16) : (s.loadRegs a x).stackCell k = s.stackCell k := by simp only [stackCell, loadRegs]
@[simp] theorem stackCell_tick (k : Fin 16) : (s.tick).stackCell k = s.stackCell k := rfl
@[simp] theorem stackCell_useRnd (k : Fin 16) : (s.useRnd).stackCell k = s.stackCell k := rfl
@[simp] theorem stackCell_loadRnd (b : Byte) (x : RegIndex) (nn : Byte) (k : Fin 16) : (s.loadRnd b x nn).stackCell k = s.stackCell k := rfl
@[simp] theorem stackCell_commitCanvas (c : Canvas) (k : Fin 16) : (s.commitCanvas c).stackCell k = s.stackCell k := rfl

/-! ### `key` of updates that do not touch it -/

@[simp] theorem key_setReg (x : RegIndex) (b : Byte) (k : Fin 16) : (s.setReg x b).key k = s.key k := rfl
@[simp] theorem key_setFlagged (x : RegIndex) (b f : Byte) (k : Fin 16) : (s.setFlagged x b f).key k = s.key k := rfl
@[simp] theorem key_setI (a : Word) (k : Fin 16) : (s.setI a).key k = s.key k := rfl
@[simp] theorem key_jump (a : Word) (k : Fin 16) : (s.jump a).key k = s.key k := rfl
@[simp] theorem key_advance (k : Fin 16) : (s.advance).key k = s.key k := rfl
@[simp] theorem key_skipIf (c : Bool) (k : Fin 16) : (s.skipIf c).key k = s.key k := rfl
@[simp] theorem key_raise (c : Condition) (k : Fin 16) : (s.raise c).key k = s.key k := rfl
@[simp] theorem key_memWrite (a : Word) (b : Byte) (k : Fin 16) : (s.memWrite a b).key k = s.key k := rfl
@[simp] theorem key_loadRegs (a : Word) (x : RegIndex) (k : Fin 16) : (s.loadRegs a x).key k = s.key k := by simp only [key, loadRegs]
@[simp] theorem key_tick (k : Fin 16) : (s.tick).key k = s.key k := rfl
@[simp] theorem key_useRnd (k : Fin 16) : (s.useRnd).key k = s.key k := rfl
@[simp] theorem key_loadRnd (b : Byte) (x : RegIndex) (nn : Byte) (k : Fin 16) : (s.loadRnd b x nn).key k = s.key k := rfl
@[simp] theorem key_commitCanvas (c : Canvas) (k : Fin 16) : (s.commitCanvas c).key k = s.key k := rfl

/-! ### `cell` of updates that do not touch it -/

@[simp] theorem cell_setReg (x : RegIndex) (b : Byte) (L : Nat) : (s.setReg x b).cell L = s.cell L := rfl
@[simp] theorem cell_setFlagged (x : RegIndex) (b f : Byte) (L : Nat) : (s.setFlagged x b f).cell L = s.cell L := rfl
@[simp] theorem cell_setI (a : Word) (L : Nat) : (s.setI a).cell L = s.cell L := rfl
@[simp] theorem cell_jump (a : Word) (L : Nat) : (s.jump a).cell L = s.cell L := rfl
@[simp] theorem cell_advance (L : Nat) : (s.advance).cell L = s.cell L := rfl
@[simp] theorem cell_skipIf (c : Bool) (L : Nat) : (s.skipIf c).cell L = s.cell L := rfl
@[simp] theorem cell_raise (c : Condition) (L : Nat) : (s.raise c).cell L = s.cell L := rfl
@[simp] theorem cell_memWrite (a : Word) (b : Byte) (L : Nat) : (s.memWrite a b).cell L = s.cell L := rfl
@[simp] theorem cell_loadRegs (a : Word) (x : RegIndex) (L : Nat) : (s.loadRegs a x).cell L = s.cell L := by simp only [cell, loadRegs]
@[simp] theorem cell_tick (L : Nat) : (s.tick).cell L = s.cell L := rfl
@[simp] theorem cell_useRnd (L : Nat) : (s.useRnd).cell L = s.cell L := rfl
@[simp] theorem cell_loadRnd (b : Byte) (x : RegIndex) (nn : Byte) (L : Nat) : (s.loadRnd b x nn).cell L = s.cell L := rfl

@[simp] theorem cell_commitCanvas (c : Canvas) (L : Nat) : (s.commitCanvas c).cell L = c.fb.getLsbD L := rfl

/-- The registers after a drawing is committed: VF holds the collision flag. -/
@[simp] theorem reg_commitCanvas (c : Canvas) (r : RegIndex) :
    (s.commitCanvas c).reg r = if r = 15 then flagByte c.flag else s.reg r :=
  reg_setReg { s with fb := c.fb, dirty := true } VF (flagByte c.flag) r

end Sys2Proof.Machine.State
end

