-- ==== Sys2Proof/Laws/Memory.lean ====
section
/-! SUPPORT. The laws of memory: read after write, the canonical form and its uniqueness, and what a block of stores
leaves. -/

namespace Sys2Proof.Machine.Memory

/-- The canonical form of a non-empty list, part by part. -/
theorem wf_cons {a : Nat} {v : Byte} {m : Memory} :
    wf ((a, v) :: m) = true ↔ a < 4096 ∧ v ≠ blank a ∧ (∀ c ∈ m, a < c.1) ∧ wf m = true := by
  simp [wf, and_assoc]

/-- An address below every listed one reads as its reset contents. -/
theorem read_of_lt {m : Memory} {a : Nat} (h : ∀ c ∈ m, a < c.1) : read m a = blank a := by
  induction m with
  | nil => rfl
  | cons c m ih =>
    obtain ⟨b, w⟩ := c
    have hb : a < b := h (b, w) (by simp)
    simp only [read, if_neg (Nat.ne_of_gt hb)]
    exact ih fun c hc => h c (by simp [hc])

/-- Read after write: the written byte at the written address, and every other address as before. -/
theorem read_write {m : Memory} (hm : wf m = true) (a : Nat) (v : Byte) (c : Nat) :
    read (write m a v) c = if c = a then v else read m c := by
  induction m with
  | nil =>
    by_cases hv : v = blank a <;> by_cases hc : c = a
    · subst hc; simp [write, hv, read]
    · simp [write, hv, hc]
    · subst hc; simp [write, hv, read]
    · simp [write, hv, hc, read, Ne.symm hc]
  | cons e m ih =>
    obtain ⟨b, w⟩ := e
    obtain ⟨-, -, hlt, hwf⟩ := wf_cons.mp hm
    have below : ∀ {d}, d < b → read ((b, w) :: m) d = blank d := fun hd =>
      read_of_lt fun e he => by
        rcases List.mem_cons.mp he with rfl | he
        · exact hd
        · exact Nat.lt_trans hd (hlt e he)
    rcases Nat.lt_trichotomy a b with h | h | h
    · by_cases hv : v = blank a
      · by_cases hc : c = a
        · subst hc; simp [write, h, hv, below h]
        · simp [write, h, hv, hc]
      · by_cases hc : c = a
        · subst hc; simp [write, h, hv, read]
        · simp [write, h, hv, hc, read, Ne.symm hc]
    · subst h
      by_cases hv : v = blank a <;> by_cases hc : c = a
      · subst hc; simp [write, hv, read_of_lt hlt]
      · simp [write, hv, hc, read, Ne.symm hc]
      · subst hc; simp [write, hv, read]
      · simp [write, hv, hc, read, Ne.symm hc]
    · by_cases hc : b = c
      · subst hc; simp [write, read, Nat.not_lt_of_gt h, Nat.ne_of_lt h]
      · simp [write, read, Nat.not_lt_of_gt h, Nat.ne_of_lt h, hc, ih hwf]

/-- What a written list may hold: the old cells and the written one. -/
theorem mem_write {m : Memory} {a : Nat} {v : Byte} {c : Host.Cell} (h : c ∈ write m a v) : c = (a, v) ∨ c ∈ m := by
  induction m with
  | nil => simp only [write] at h; split at h <;> simp_all
  | cons e m ih =>
    obtain ⟨b, w⟩ := e
    simp only [write] at h
    split at h
    · split at h <;> simp_all
    · split at h
      · split at h <;> simp_all; tauto
      · rcases List.mem_cons.mp h with rfl | h
        · simp
        · rcases ih h with rfl | h <;> simp_all

/-- A write to a physical address keeps the canonical form. -/
theorem wf_write {m : Memory} (hm : wf m = true) {a : Nat} (ha : a < 4096) (v : Byte) : wf (write m a v) = true := by
  induction m with
  | nil => simp only [write]; split <;> simp_all [wf]
  | cons e m ih =>
    obtain ⟨b, w⟩ := e
    obtain ⟨hb, hw, hlt, hwf⟩ := wf_cons.mp hm
    rcases Nat.lt_trichotomy a b with h | h | h
    · by_cases hv : v = blank a
      · simpa [write, h, hv] using hm
      · simp only [write, h, hv, if_true, if_false]
        refine wf_cons.mpr ⟨ha, hv, fun c hc => ?_, hm⟩
        rcases List.mem_cons.mp hc with rfl | hc
        · exact h
        · exact Nat.lt_trans h (hlt c hc)
    · subst h
      by_cases hv : v = blank a
      · simpa [write, hv] using hwf
      · simp only [write, Nat.lt_irrefl, hv, if_true, if_false]
        exact wf_cons.mpr ⟨ha, hv, hlt, hwf⟩
    · simp only [write, Nat.not_lt_of_gt h, Nat.ne_of_lt h, if_false]
      refine wf_cons.mpr ⟨hb, hw, fun c hc => ?_, ih hwf⟩
      rcases mem_write hc with rfl | hc
      · exact h
      · exact hlt c hc

/-- Canonical memories that read the same everywhere are the same list. -/
theorem eq_of_read_eq {m n : Memory} (hm : wf m = true) (hn : wf n = true) (h : ∀ a, read m a = read n a) : m = n := by
  induction m generalizing n with
  | nil =>
    cases n with
    | nil => rfl
    | cons e n =>
      obtain ⟨b, w⟩ := e
      have := h b
      simp only [read, if_true] at this
      exact absurd this.symm (wf_cons.mp hn).2.1
  | cons e m ih =>
    obtain ⟨a, v⟩ := e
    obtain ⟨-, hv, hlt, hwf⟩ := wf_cons.mp hm
    cases n with
    | nil =>
      have := h a
      simp only [read, if_true] at this
      exact absurd this hv
    | cons f n =>
      obtain ⟨b, w⟩ := f
      obtain ⟨-, hw, hlt', hwf'⟩ := wf_cons.mp hn
      have hab : a = b := by
        rcases Nat.lt_trichotomy a b with hl | he | hl
        · have := h a
          rw [read_of_lt (m := (b, w) :: n)] at this
          · simp only [read, if_true] at this; exact absurd this hv
          · intro c hc
            rcases List.mem_cons.mp hc with rfl | hc
            · exact hl
            · exact Nat.lt_trans hl (hlt' c hc)
        · exact he
        · have := h b
          rw [read_of_lt (m := (a, v) :: m)] at this
          · simp only [read, if_true] at this; exact absurd this.symm hw
          · intro c hc
            rcases List.mem_cons.mp hc with rfl | hc
            · exact hl
            · exact Nat.lt_trans hl (hlt c hc)
      subst hab
      have hvw : v = w := by have := h a; simpa [read] using this
      subst hvw
      congr 1
      refine ih hwf hwf' fun c => ?_
      by_cases hc : a = c
      · subst hc; rw [read_of_lt hlt, read_of_lt hlt']
      · simpa [read, hc] using h c

end Sys2Proof.Machine.Memory

namespace Sys2Proof.Machine

/-- The translator keeps the low 12 bits of an address (20_memory.md R52). -/
theorem xlate_eq_mod (a : Word) : xlate a = a.toNat % 4096 := by
  simp [xlate, BitVec.extractLsb'_toNat]

/-- A translated address exists (R52). -/
theorem xlate_lt (a : Word) : xlate a < 4096 := by
  rw [xlate_eq_mod]; exact Nat.mod_lt _ (by decide)

namespace State

/-- A byte store keeps the canonical form. -/
theorem wf_memWrite {s : State} (h : Memory.wf s.mem = true) (a : Word) (b : Byte) :
    Memory.wf (s.memWrite a b).mem = true :=
  Memory.wf_write h (xlate_lt a) b

/-- Reading a byte after storing one. -/
theorem memRead_memWrite {s : State} (h : Memory.wf s.mem = true) (a : Word) (b : Byte) (c : Word) :
    (s.memWrite a b).memRead c = if xlate c = xlate a then b else s.memRead c :=
  Memory.read_write h (xlate a) b (xlate c)

/-- A block of stores changes memory only. -/
theorem storeBytes_eq (s : State) (a : Word) (bs : List Byte) :
    s.storeBytes a bs = { s with mem := (s.storeBytes a bs).mem } := by
  induction bs generalizing s a with
  | nil => rfl
  | cons b bs ih => rw [storeBytes, ih]; rfl

@[simp] theorem storeBytes_v (s : State) (a : Word) (bs : List Byte) : (s.storeBytes a bs).v = s.v := by
  rw [storeBytes_eq]
@[simp] theorem storeBytes_i (s : State) (a : Word) (bs : List Byte) : (s.storeBytes a bs).i = s.i := by
  rw [storeBytes_eq]
@[simp] theorem storeBytes_pc (s : State) (a : Word) (bs : List Byte) : (s.storeBytes a bs).pc = s.pc := by
  rw [storeBytes_eq]
@[simp] theorem storeBytes_sp (s : State) (a : Word) (bs : List Byte) : (s.storeBytes a bs).sp = s.sp := by
  rw [storeBytes_eq]
@[simp] theorem storeBytes_stack (s : State) (a : Word) (bs : List Byte) : (s.storeBytes a bs).stack = s.stack := by
  rw [storeBytes_eq]
@[simp] theorem storeBytes_dt (s : State) (a : Word) (bs : List Byte) : (s.storeBytes a bs).dt = s.dt := by
  rw [storeBytes_eq]
@[simp] theorem storeBytes_st (s : State) (a : Word) (bs : List Byte) : (s.storeBytes a bs).st = s.st := by
  rw [storeBytes_eq]
@[simp] theorem storeBytes_keys (s : State) (a : Word) (bs : List Byte) : (s.storeBytes a bs).keys = s.keys := by
  rw [storeBytes_eq]
@[simp] theorem storeBytes_fb (s : State) (a : Word) (bs : List Byte) : (s.storeBytes a bs).fb = s.fb := by
  rw [storeBytes_eq]
@[simp] theorem storeBytes_dirty (s : State) (a : Word) (bs : List Byte) : (s.storeBytes a bs).dirty = s.dirty := by
  rw [storeBytes_eq]
@[simp] theorem storeBytes_halt (s : State) (a : Word) (bs : List Byte) : (s.storeBytes a bs).halt = s.halt := by
  rw [storeBytes_eq]
@[simp] theorem storeBytes_draws (s : State) (a : Word) (bs : List Byte) : (s.storeBytes a bs).draws = s.draws := by
  rw [storeBytes_eq]
@[simp] theorem reg_storeBytes (s : State) (a : Word) (bs : List Byte) (r : RegIndex) :
    (s.storeBytes a bs).reg r = s.reg r := by
  rw [storeBytes_eq]; rfl

@[simp] theorem stackCell_storeBytes (s : State) (a : Word) (bs : List Byte) (k : Fin 16) :
    (s.storeBytes a bs).stackCell k = s.stackCell k := by
  rw [storeBytes_eq]; rfl
@[simp] theorem key_storeBytes (s : State) (a : Word) (bs : List Byte) (k : Fin 16) :
    (s.storeBytes a bs).key k = s.key k := by
  rw [storeBytes_eq]; rfl
@[simp] theorem cell_storeBytes (s : State) (a : Word) (bs : List Byte) (L : Nat) :
    (s.storeBytes a bs).cell L = s.cell L := by
  rw [storeBytes_eq]; rfl

/-- A block of stores keeps the canonical form. -/
theorem wf_storeBytes {s : State} (h : Memory.wf s.mem = true) (a : Word) (bs : List Byte) :
    Memory.wf (s.storeBytes a bs).mem = true := by
  induction bs generalizing s a with
  | nil => exact h
  | cons b bs ih => exact ih (wf_memWrite h a b) (a + 1#16)

/-- A byte whose physical address lies outside a block of stores reads as before. -/
theorem memRead_storeBytes_outside {s : State} (h : Memory.wf s.mem = true) (a : Word) (bs : List Byte) (c : Word)
    (hc : ∀ k < bs.length, xlate c ≠ xlate (a + BitVec.ofNat 16 k)) : (s.storeBytes a bs).memRead c = s.memRead c := by
  induction bs generalizing s a with
  | nil => rfl
  | cons b bs ih =>
    rw [storeBytes, ih (wf_memWrite h a b), memRead_memWrite h, if_neg (by simpa using hc 0 (by simp))]
    intro k hk
    have := hc (k + 1) (by simpa using hk)
    rwa [BitVec.ofNat_add, BitVec.add_comm (BitVec.ofNat 16 k), ← BitVec.add_assoc] at this

/-- Byte `k` of a block of at most 4096 stores reads as stored. -/
theorem memRead_storeBytes {s : State} (h : Memory.wf s.mem = true) (a : Word) (bs : List Byte)
    (hl : bs.length ≤ 4096) (k : Nat) (hk : k < bs.length) :
    (s.storeBytes a bs).memRead (a + BitVec.ofNat 16 k) = bs[k] := by
  induction bs generalizing s a k with
  | nil => simp at hk
  | cons b bs ih =>
    rw [storeBytes]
    cases k with
    | zero =>
      rw [memRead_storeBytes_outside (wf_memWrite h a b), memRead_memWrite h]
      · simp
      · intro k hk'
        simp only [List.length_cons] at hl
        simp only [xlate_eq_mod, BitVec.toNat_add, BitVec.toNat_ofNat]
        simp
        omega
    | succ k =>
      have := ih (wf_memWrite h a b) (a + 1#16) (by simp at hl; omega) k (by simpa using hk)
      rw [BitVec.ofNat_add, BitVec.add_comm (BitVec.ofNat 16 k), ← BitVec.add_assoc]
      simpa using this

/-- The length of the block `Fx55` stores (43_index_memory.md R144). -/
@[simp] theorem length_regsUpTo (s : State) (x : RegIndex) : (s.regsUpTo x).length = x.val + 1 := by
  simp [regsUpTo]

/-- Byte `k` of the block `Fx55` stores is `V[k]` (R144). -/
theorem getElem_regsUpTo (s : State) (x : RegIndex) (k : Nat) (hk : k < (s.regsUpTo x).length) :
    (s.regsUpTo x)[k] = s.reg ⟨k, by simp at hk; omega⟩ := by
  simp [regsUpTo, reg]

end State

end Sys2Proof.Machine
end

