-- ==== Sys2Proof/Laws/Ops.lean ====
section
/-! SUPPORT. One lemma per shared operation that says once what it can do: the stack, the timer tick, the key operands, the
8-bit results and flags as numbers, the widened operands as numbers. -/

namespace Sys2Proof.Machine

/-! ### Call stack -/

/-- A push below the limit writes the cell at the count and counts it. -/
theorem State.push_of_lt {s : State} (h : s.sp.val < 16) (a : Word) :
    ∃ t, s.push a = some t ∧ t.sp.val = s.sp.val + 1 ∧
      (∀ k : Fin 16, t.stackCell k = if k.val = s.sp.val then a else s.stackCell k) ∧
      t = { s with stack := t.stack, sp := t.sp } := by
  refine ⟨_, dif_pos h, rfl, fun k => ?_, rfl⟩
  simp only [stackCell, Vector.getElem_set, eq_comm]

/-- A push on a full stack gives nothing. -/
theorem State.push_of_full {s : State} (h : s.sp.val = 16) (a : Word) : s.push a = none :=
  dif_neg (by omega)

/-- A pop above zero gives the newest entry and uncounts it. -/
theorem State.pop_of_pos {s : State} (h : 0 < s.sp.val) :
    ∃ t, s.pop = some (s.stackCell ⟨s.sp.val - 1, by omega⟩, t) ∧ t.sp.val = s.sp.val - 1 ∧ t = { s with sp := t.sp } :=
  ⟨_, dif_pos h, rfl, rfl⟩

/-- A pop on an empty stack gives nothing. -/
theorem State.pop_of_empty {s : State} (h : s.sp.val = 0) : s.pop = none := dif_neg (by omega)

/-- Two states with the same stack cells have the same stack. -/
theorem State.stack_eq_of_cells {s t : State} (h : ∀ k : Fin 16, t.stackCell k = s.stackCell k) : t.stack = s.stack :=
  Vector.ext fun k hk => h ⟨k, hk⟩

/-! ### Timers -/

/-- A tick decrements a timer and stops at 0 (10_state.md R25). -/
theorem tickTimer_toNat (b : Byte) : (tickTimer b).toNat = b.toNat - 1 := by
  have := b.isLt
  unfold tickTimer
  split
  · simp [*]
  · rename_i h
    have : b.toNat ≠ 0 := fun h' => h (BitVec.eq_of_toNat_eq h')
    rw [BitVec.toNat_sub]; simp; omega

/-! ### Keys -/

/-- The key a register selects, as a number (45_keypad_timers.md R160). -/
theorem keyOf_val (b : Byte) : (keyOf b).val = b.toNat % 16 := by
  change (b.extractLsb' 0 4).toNat = _
  simp only [BitVec.extractLsb'_toNat, Nat.shiftRight_zero]

/-- No key is pressed exactly when the latch is zero. -/
theorem keys_eq_zero_iff (keys : BitVec 16) : keys = 0#16 ↔ ∀ k : Fin 16, keys.getLsbD k.val = false := by
  constructor
  · rintro rfl k; simp
  · intro h; ext k hk; simpa [BitVec.getLsbD_eq_getElem hk] using h ⟨k, hk⟩

/-- With no key pressed there is no highest key. -/
theorem highestKey_zero : highestKey 0#16 = none := by decide

/-- The key found is pressed and no higher key is (R163). -/
theorem highestKey_some {keys : BitVec 16} {k : Fin 16} (h : highestKey keys = some k) :
    keys.getLsbD k.val = true ∧ ∀ j : Fin 16, keys.getLsbD j.val = true → j ≤ k := by
  obtain ⟨hk, as, bs, hl, has⟩ := List.find?_eq_some_iff_append.mp h
  refine ⟨hk, fun j hj => ?_⟩
  have hmem : j ∈ as ++ k :: bs := hl ▸ by simp
  have hsort : (as ++ k :: bs).Pairwise (· > ·) := hl ▸ by decide
  rcases List.mem_append.mp hmem with hm | hm
  · exact absurd hj (by simpa using has j hm)
  · rcases List.mem_cons.mp hm with rfl | hm
    · exact le_refl _
    · exact le_of_lt ((List.pairwise_cons.mp (List.pairwise_append.mp hsort).2.1).1 j hm)

/-- With a key pressed there is a highest key. -/
theorem highestKey_isSome {keys : BitVec 16} (h : keys ≠ 0#16) : ∃ k, highestKey keys = some k := by
  cases hk : highestKey keys with
  | some k => exact ⟨k, rfl⟩
  | none =>
    refine absurd ((keys_eq_zero_iff keys).mpr fun k => ?_) h
    simpa using List.find?_eq_none.mp hk k (by simp)

/-! ### Results and flags as numbers (42_alu.md R120) -/

theorem addResult_toNat (a b : Byte) : (addResult a b).toNat = (a.toNat + b.toNat) % 256 := by
  simp [addResult]

theorem subResult_toNat (a b : Byte) : (subResult a b).toNat = (a.toNat + 256 - b.toNat) % 256 := by
  have := a.isLt; have := b.isLt
  simp only [subResult, BitVec.toNat_ofInt]
  omega

theorem shrResult_toNat (b : Byte) : (shrResult b).toNat = b.toNat / 2 := by
  simp [shrResult, BitVec.toNat_ushiftRight, Nat.shiftRight_eq_div_pow]

theorem shlResult_toNat (b : Byte) : (shlResult b).toNat = 2 * b.toNat % 256 := by
  simp [shlResult, BitVec.toNat_shiftLeft, Nat.shiftLeft_eq, Nat.mul_comm]

theorem lowBitFlag_toNat (b : Byte) : (lowBitFlag b).toNat = b.toNat % 2 := by revert b; decide

theorem highBitFlag_toNat (b : Byte) : (highBitFlag b).toNat = b.toNat / 128 := by revert b; decide

/-! ### Widened operands as numbers -/

theorem target_toNat (nnn : BitVec 12) : (target nnn).toNat = nnn.toNat := by
  simp [target]; omega

theorem widen_toNat (b : Byte) : (widen b).toNat = b.toNat := by
  simp [widen]; omega

theorem glyphAddress_toNat (b : Byte) : (glyphAddress b).toNat = 0x50 + 5 * b.toNat := by
  have := b.isLt
  simp only [glyphAddress, BitVec.toNat_add, BitVec.toNat_mul, widen_toNat, BitVec.toNat_ofNat]
  omega

end Sys2Proof.Machine
end

