-- ==== Sys2Proof/Laws/Display.lean ====
section
/-! SUPPORT. Drawing, said once: which pixels a sprite has, that no cell is touched twice (44_display.md R154), and what
framebuffer and flag a drawing leaves. -/

namespace Sys2Proof.Machine

open Sys2Proof.Safety

/-- The pixels of a sprite are its set bits. -/
theorem State.mem_spritePixels {s : State} {vx vy : Byte} {n L : Nat} :
    L ∈ s.spritePixels vx vy n ↔ SetPixel s vx vy n L := by
  simp only [spritePixels, SetPixel, spriteBit, pixelIndex, List.mem_flatMap, List.mem_map, List.mem_filter, List.mem_range]
  constructor
  · rintro ⟨row, hr, col, ⟨hc, hb⟩, rfl⟩; exact ⟨row, col, hr, hc, hb, rfl⟩
  · rintro ⟨row, col, hr, hc, hb, rfl⟩; exact ⟨row, hr, col, ⟨hc, hb⟩, rfl⟩

/-- Where a pixel goes: its own cell, the wrapped cell, or nowhere. -/
def placed (mode : DrawOob) (L : Nat) : Option Nat :=
  if L < 2048 then some L else if mode = .wrap then some (L % 2048) else none

/-- A placed pixel lies in the framebuffer. -/
theorem placed_lt {mode : DrawOob} {L c : Nat} (h : placed mode L = some c) : c < 2048 := by
  unfold placed at h
  split at h
  · simpa [← Option.some.inj h]
  · split at h
    · rw [← Option.some.inj h]; exact Nat.mod_lt _ (by decide)
    · exact absurd h (by simp)

/-- Drawing raises exactly under `fault` with a pixel outside; otherwise it plots the placed pixels one after another. -/
theorem Canvas.drawPixels_eq (mode : DrawOob) (c : Canvas) (Ls : List Nat) :
    c.drawPixels mode Ls =
      if mode = .fault ∧ ∃ L ∈ Ls, 2048 ≤ L then none else some ((Ls.filterMap (placed mode)).foldl Canvas.plot c) := by
  induction Ls generalizing c with
  | nil => simp [drawPixels]
  | cons L Ls ih =>
    by_cases hL : L < 2048
    · have hp : placed mode L = some L := by simp [placed, hL]
      simp [drawPixels, hL, ih, List.filterMap_cons_some hp, Nat.not_le_of_lt hL]
    · cases mode with
      | clip =>
        have hp : placed .clip L = none := by simp [placed, hL]
        simp [drawPixels, hL, ih, List.filterMap_cons_none hp]
      | wrap =>
        have hp : placed .wrap L = some (L % 2048) := by simp [placed, hL]
        simp [drawPixels, hL, ih, List.filterMap_cons_some hp]
      | fault => simp [drawPixels, hL, Nat.le_of_not_lt hL]

/-- Plotting one cell of the framebuffer inverts it and no other. -/
theorem Canvas.plot_cell (c : Canvas) {L k : Nat} (hL : L < 2048) :
    (c.plot L).fb.getLsbD k = (c.fb.getLsbD k ^^ decide (k = L)) := by
  simp only [plot, BitVec.getLsbD_xor, BitVec.getLsbD_twoPow, hL, decide_true, Bool.true_and, eq_comm]

/-- Plotting distinct cells inverts exactly those, and the flag tells whether one of them held 1 (R154). -/
theorem Canvas.plotAll (c : Canvas) (cs : List Nat) (hn : cs.Nodup) (hlt : ∀ k ∈ cs, k < 2048) :
    (∀ k, (cs.foldl plot c).fb.getLsbD k = (c.fb.getLsbD k ^^ decide (k ∈ cs))) ∧
      ((cs.foldl plot c).flag = true ↔ c.flag = true ∨ ∃ k ∈ cs, c.fb.getLsbD k = true) := by
  induction cs generalizing c with
  | nil => simp
  | cons L cs ih =>
    obtain ⟨hL, hn⟩ := List.nodup_cons.mp hn
    obtain ⟨h1, h2⟩ := ih (c.plot L) hn fun k hk => hlt k (List.mem_cons_of_mem _ hk)
    have hc := fun k => c.plot_cell (L := L) (k := k) (hlt L List.mem_cons_self)
    refine ⟨fun k => ?_, ?_⟩
    · rw [List.foldl_cons, h1, hc]
      by_cases hk : k = L
      · subst hk; simp [hL]
      · simp [hk]
    · rw [List.foldl_cons, h2]
      have hne : ∀ k ∈ cs, k ≠ L := fun k hk e => hL (e ▸ hk)
      have hf : (c.plot L).flag = (c.flag || c.fb.getLsbD L) := rfl
      rw [hf]
      constructor
      · rintro (h | ⟨k, hk, h⟩)
        · rcases Bool.or_eq_true_iff.mp h with h | h
          · exact .inl h
          · exact .inr ⟨L, by simp, h⟩
        · rw [hc, decide_eq_false (hne k hk), Bool.xor_false] at h
          exact .inr ⟨k, by simp [hk], h⟩
      · rintro (h | ⟨k, hk, h⟩)
        · simp [h]
        · rcases List.mem_cons.mp hk with rfl | hk
          · simp [h]
          · exact .inr ⟨k, hk, by rw [hc, decide_eq_false (hne k hk), Bool.xor_false, h]⟩

/-- A list of numbers in strictly rising order that all lie in one window of 2048 goes to distinct cells. -/
theorem nodup_placed (mode : DrawOob) (Ls : List Nat) (lo : Nat) (hs : Ls.Pairwise (· < ·))
    (hw : ∀ L ∈ Ls, lo ≤ L ∧ L < lo + 2048) : (Ls.filterMap (placed mode)).Nodup := by
  have hs' : Ls.Pairwise (fun a b => a < b ∧ (lo ≤ a ∧ a < lo + 2048) ∧ lo ≤ b ∧ b < lo + 2048) := by
    induction Ls with
    | nil => exact .nil
    | cons a l ih =>
      obtain ⟨h1, h2⟩ := List.pairwise_cons.mp hs
      exact .cons (fun b hb => ⟨h1 b hb, hw a (by simp), hw b (by simp [hb])⟩)
        (ih h2 fun L hL => hw L (by simp [hL]))
  refine (List.pairwise_filterMap.mpr (hs'.imp ?_) : (Ls.filterMap (placed mode)).Pairwise (· ≠ ·))
  rintro a b ⟨hab, ha, hb⟩ p hp q hq
  unfold placed at hp hq
  split at hp <;> split at hq <;> (try split at hp) <;> (try split at hq) <;> simp_all <;> omega

/-- The pixels of a sprite come in strictly rising order, within one window of 2048 indices (R154). -/
theorem State.spritePixels_sorted (s : State) (vx vy : Byte) (n : Nat) :
    (s.spritePixels vx vy n).Pairwise (· < ·) := by
  simp only [spritePixels, pixelIndex]
  rw [List.pairwise_flatMap]
  constructor
  · intro row _
    refine List.Pairwise.map _ ?_ (List.Pairwise.filter _ List.pairwise_lt_range)
    intro a b h; omega
  · refine List.Pairwise.imp ?_ (List.pairwise_lt_range (n := n))
    intro r r' hr a ha b hb
    simp only [List.mem_map, List.mem_filter, List.mem_range] at ha hb
    obtain ⟨c, ⟨hc, -⟩, rfl⟩ := ha
    obtain ⟨c', ⟨hc', -⟩, rfl⟩ := hb
    omega

/-- No cell is touched twice by one sprite of at most 15 rows (R154 (1)). -/
theorem State.nodup_placedPixels (s : State) (mode : DrawOob) (vx vy : Byte) (n : Nat) (hn : n ≤ 15) :
    ((s.spritePixels vx vy n).filterMap (placed mode)).Nodup := by
  refine nodup_placed mode _ (vx.toNat + 64 * vy.toNat) (s.spritePixels_sorted vx vy n) fun L hL => ?_
  obtain ⟨row, col, hr, hc, -, rfl⟩ := State.mem_spritePixels.mp hL
  omega

/-- The cells a sprite's pixels are placed at are the drawn cells. -/
theorem State.mem_placedPixels {s : State} {mode : DrawOob} {vx vy : Byte} {n c : Nat} :
    c ∈ (s.spritePixels vx vy n).filterMap (placed mode) ↔ DrawnCell mode s vx vy n c := by
  simp only [List.mem_filterMap, State.mem_spritePixels, DrawnCell, placed]
  refine exists_congr fun L => and_congr_right fun _ => ?_
  by_cases hL : L < 2048
  · simp [hL, Nat.not_le_of_lt hL, eq_comm]
  · simp [hL, Nat.le_of_not_lt hL, eq_comm]

/-- What drawing a sprite of at most 15 rows does, under each `DRAW_OOB` (R151, R152). -/
theorem State.drawSprite_cases (s : State) (mode : DrawOob) (vx vy : Byte) (n : Nat) (hn : n ≤ 15) :
    (mode = .fault ∧ SomePixelOutside s vx vy n ∧ s.drawSprite mode vx vy n = s.raise .drawOutOfBounds) ∨
    (¬ (mode = .fault ∧ SomePixelOutside s vx vy n) ∧ ∃ c : Canvas, s.drawSprite mode vx vy n = s.commitCanvas c ∧
      (∀ k, c.fb.getLsbD k = true ↔ ¬ (s.cell k = true ↔ DrawnCell mode s vx vy n k)) ∧
      (c.flag = true ↔ ∃ k, DrawnCell mode s vx vy n k ∧ s.cell k = true)) := by
  have hout : (∃ L ∈ s.spritePixels vx vy n, 2048 ≤ L) ↔ SomePixelOutside s vx vy n :=
    exists_congr fun L => by rw [State.mem_spritePixels]
  by_cases hf : mode = .fault ∧ SomePixelOutside s vx vy n
  · exact .inl ⟨hf.1, hf.2, by simp only [drawSprite, Canvas.drawPixels_eq, hout, hf, and_self, if_true]⟩
  · refine .inr ⟨hf, _, by simp only [drawSprite, Canvas.drawPixels_eq, hout, hf, if_false]; rfl, ?_⟩
    obtain ⟨h1, h2⟩ := Canvas.plotAll ⟨s.fb, false⟩ _ (s.nodup_placedPixels mode vx vy n hn) fun k hk => by
      obtain ⟨L, -, hL⟩ := List.mem_filterMap.mp hk; exact placed_lt hL
    refine ⟨fun k => ?_, ?_⟩
    · rw [h1, ← State.mem_placedPixels]
      by_cases hk : k ∈ (s.spritePixels vx vy n).filterMap (placed mode) <;> simp [hk, cell]
    · rw [h2]; simp only [State.mem_placedPixels, cell]; simp

end Sys2Proof.Machine
end

