-- ==== Sys2Proof/Laws/Step.lean ====
section
/-! SUPPORT. What a cycle can do, said once: halted, unknown opcode, or one instruction with its end of cycle; and what a
fetch reads. -/

namespace Sys2Proof.Machine

/-- The fetched word decodes as the two bytes at `pc` do (30_encoding.md R70, R73). -/
theorem decodeBytes_fetch (s : State) (i : Instr) (rest : List Byte) :
    decodeBytes [s.memRead s.pc, s.memRead (s.pc + 1#16)] = .instr i rest ↔
      decodeWord s.fetch = some i ∧ rest = [] :=
  decodeBytes_cons _ _ _ _ _

/-- A cycle of a halted core (60_exceptions.md R172). -/
theorem cycle_of_halted {s : State} (h : s.halt ≠ 0#3) : cycle s = .next (untouched s .halted) := by
  rw [cycle, if_neg h]

/-- A cycle at an unknown opcode (40_cycle_and_system.md R94). -/
theorem cycle_of_unknown {s : State} (h : s.halt = 0#3) (hd : decodeWord s.fetch = none) :
    cycle s = .next (ticked s .unknownOpcode) := by
  rw [cycle, if_pos h, hd]

/-- A cycle that executes an instruction (R90). -/
theorem cycle_of_next {s t : State} {i : Instr} (h : s.halt = 0#3) (hd : decodeWord s.fetch = some i)
    (he : exec i s = .next t) : cycle s = .next (finish i s t) := by
  rw [cycle, if_pos h, hd]; simp only [he]

/-- Everything a cycle that answers can have done. -/
theorem cycle_cases {s : State} {r : CycleResult} (h : cycle s = .next r) :
    (s.halt ≠ 0#3 ∧ r = untouched s .halted) ∨
    (s.halt = 0#3 ∧ decodeWord s.fetch = none ∧ r = ticked s .unknownOpcode) ∨
    (∃ i t, s.halt = 0#3 ∧ decodeWord s.fetch = some i ∧ exec i s = .next t ∧ r = finish i s t) := by
  by_cases hh : s.halt = 0#3
  · cases hd : decodeWord s.fetch with
    | none =>
      rw [cycle_of_unknown hh hd] at h
      exact .inr (.inl ⟨hh, rfl, by simpa using h.symm⟩)
    | some i =>
      cases he : exec i s with
      | next t =>
        rw [cycle_of_next hh hd he] at h
        exact .inr (.inr ⟨i, t, hh, rfl, he, by simpa using h.symm⟩)
      | fault f => rw [cycle, if_pos hh, hd] at h; simp [he] at h
      | refused f => rw [cycle, if_pos hh, hd] at h; simp [he] at h
  · rw [cycle_of_halted hh] at h
    exact .inl ⟨hh, by simpa using h.symm⟩

/-- A step is a cycle, of which it keeps the state. -/
theorem step_of_cycle {s : State} {r : CycleResult} (h : cycle s = .next r) : step s = .next r.state := by
  simp [step, h]

/-- A step that answers comes from a cycle that answers. -/
theorem cycle_of_step {s t : State} (h : step s = .next t) : ∃ r, cycle s = .next r ∧ t = r.state := by
  cases hc : cycle s with
  | next r => exact ⟨r, rfl, by simpa [step, hc] using h.symm⟩
  | fault f => simp [step, hc] at h
  | refused f => simp [step, hc] at h

/-- The end of a cycle whose instruction raised nothing. -/
theorem finish_of_running {i : Instr} {s t : State} (h : t.halt = 0#3) :
    finish i s t = ticked t (if awaitsKey i s then .awaitingKey else .progress) := if_pos h

/-- The end of a cycle whose instruction raised a condition. -/
theorem finish_of_raised {i : Instr} {s t : State} (h : t.halt ≠ 0#3) : finish i s t = untouched t .fatal := if_neg h

/-- No steps leave the state. -/
theorem core_run_zero (s : State) : Sys2Proof.core.run 0 s = .next s := rfl

/-- A run of one step more goes on from the state of its first step. -/
theorem core_run_succ {s t : State} (h : step s = .next t) (n : Nat) :
    Sys2Proof.core.run (n + 1) s = Sys2Proof.core.run n t := by
  have : Sys2Proof.core.step s = .next t := h
  simp only [Host.Core.run, this]

/-- A word placed at `pc` is what the next cycle fetches. -/
theorem fetch_placeWord {s : State} (h : Memory.wf s.mem = true) (op : Word) : (s.placeWord op).fetch = op := by
  have hl : ([highByte op, lowByte op] : List Byte).length ≤ 4096 := by simp
  have h0 : (s.placeWord op).memRead s.pc = highByte op := by
    simpa [State.placeWord] using State.memRead_storeBytes h s.pc [highByte op, lowByte op] hl 0 (by simp)
  have h1 : (s.placeWord op).memRead (s.pc + 1#16) = lowByte op :=
    State.memRead_storeBytes h s.pc [highByte op, lowByte op] hl 1 (by simp)
  have hp : (s.placeWord op).pc = s.pc := State.storeBytes_pc _ _ _
  rw [State.fetch, hp, h0, h1, composeWord_bytes]

end Sys2Proof.Machine
end

