-- ==== Sys2Proof/Laws/Frame.lean ====
section
/-! SUPPORT. The frame of each shared operation, said once: which parts of the state it leaves as they were. -/

namespace Sys2Proof.Safety

open Sys2Proof.Machine

/-- A part is the same as itself. -/
theorem Part.same_refl (p : Part) (s : State) : p.Same s s := by cases p <;> simp [Part.Same]

/-- Sameness of a part is transitive. -/
theorem Part.same_trans {p : Part} {s t u : State} (h : p.Same s t) (h' : p.Same t u) : p.Same s u := by
  cases p <;> simp only [Part.Same] at * <;> intros <;> simp_all

/-- Nothing changes from a state to itself. -/
theorem SameBut.refl (ps : List Part) (s : State) : SameBut ps s s := fun p _ => p.same_refl s

/-- Frames compose. -/
theorem SameBut.trans {ps : List Part} {s t u : State} (h : SameBut ps s t) (h' : SameBut ps t u) : SameBut ps s u :=
  fun p hp => Part.same_trans (h p hp) (h' p hp)

/-- A frame may be widened. -/
theorem SameBut.mono {ps qs : List Part} {s t : State} (h : SameBut ps s t) (hs : ∀ p ∈ ps, p ∈ qs) : SameBut qs s t :=
  fun p hp => h p fun hm => hp (hs p hm)

theorem sameBut_setReg (s : State) (x : RegIndex) (b : Byte) : SameBut [.v] s (s.setReg x b) := by
  intro p hp; cases p <;> simp_all [Part.Same]

theorem sameBut_setFlagged (s : State) (x : RegIndex) (b f : Byte) : SameBut [.v] s (s.setFlagged x b f) := by
  intro p hp; cases p <;> simp_all [Part.Same]

theorem sameBut_setI (s : State) (a : Word) : SameBut [.i] s (s.setI a) := by
  intro p hp; cases p <;> simp_all [Part.Same]

theorem sameBut_jump (s : State) (a : Word) : SameBut [.pc] s (s.jump a) := by
  intro p hp; cases p <;> simp_all [Part.Same]

theorem sameBut_advance (s : State) : SameBut [.pc] s s.advance := sameBut_jump s _

theorem sameBut_skipIf (s : State) (c : Bool) : SameBut [.pc] s (s.skipIf c) := sameBut_jump s _

theorem sameBut_raise (s : State) (c : Condition) : SameBut [.halt] s (s.raise c) := by
  intro p hp; cases p <;> simp_all [Part.Same]

theorem sameBut_tick (s : State) : SameBut [.dt, .st] s s.tick := by
  intro p hp; cases p <;> simp_all [Part.Same]

theorem sameBut_useRnd (s : State) : SameBut [.draws] s s.useRnd := by
  intro p hp; cases p <;> simp_all [Part.Same]

theorem sameBut_loadRegs (s : State) (a : Word) (x : RegIndex) : SameBut [.v] s (s.loadRegs a x) := by
  intro p hp; cases p <;> simp_all [Part.Same]

theorem sameBut_storeBytes (s : State) (a : Word) (bs : List Byte) : SameBut [.mem] s (s.storeBytes a bs) := by
  intro p hp; cases p <;> simp_all [Part.Same]

theorem sameBut_push {s t : State} {a : Word} (h : s.push a = some t) : SameBut [.sp, .stack] s t := by
  unfold State.push at h
  split at h <;> simp only [Option.some.injEq, reduceCtorEq] at h
  subst h
  intro p hp; cases p <;> simp_all [Part.Same] <;> intros <;> rfl

theorem sameBut_pop {s t : State} {a : Word} (h : s.pop = some (a, t)) : SameBut [.sp] s t := by
  unfold State.pop at h
  split at h <;> simp only [Option.some.injEq, Prod.mk.injEq, reduceCtorEq] at h
  obtain ⟨-, rfl⟩ := h
  intro p hp; cases p <;> simp_all [Part.Same] <;> intros <;> rfl

/-- The Reset operation leaves the reset state, but for the model's count of used `rnd` inputs. -/
theorem sameBut_hostReset (s : State) : SameBut [.draws] State.reset (hostReset s) := by
  intro p hp; cases p <;> first | exact absurd (List.mem_singleton.mpr rfl) hp | (simp only [Part.Same]; intros; rfl)

theorem sameBut_commitCanvas (s : State) (c : Canvas) : SameBut [.v, .fb, .dirty, .pc] s (s.commitCanvas c) := by
  intro p hp; cases p <;> simp_all [Part.Same]

/-- The shape of every instruction that writes one register. -/
theorem wroteReg_advance (s : State) (x : RegIndex) (b : Byte) : WroteReg x b s (s.setReg x b).advance :=
  ⟨fun r => by simp, by simp,
    ((sameBut_setReg s x b).mono (by simp)).trans ((sameBut_advance _).mono (by simp))⟩

/-- The shape of every instruction that writes one register and VF. -/
theorem wroteFlagged_advance (s : State) (x : RegIndex) (b f : Byte) :
    WroteFlagged x b f s (s.setFlagged x b f).advance :=
  ⟨by simp, fun r hr => by simp [hr], by simp,
    ((sameBut_setFlagged s x b f).mono (by simp)).trans ((sameBut_advance _).mono (by simp))⟩

end Sys2Proof.Safety
end

