-- ==== Sys2Proof/Laws/PerInstr.lean ====
section
/-! SUPPORT. The family `OwnedByItsRow`, one lemma per constructor: the word of a well-formed instruction belongs to the row
of the opcode map that bears its name (30_encoding.md R74). -/

namespace Sys2Proof.Laws.OwnedByItsRow

/-- The row of the opcode map named after `i` owns the word of `i`. -/
def Statement (i : Instr) : Prop :=
  i.wf = true → ∃ row ∈ opcodeMap, row.mnemonic = i.mnemonic ∧ row.owns (encode i) = true

/-- A mask of ones keeps a nibble. -/
theorem nibble_and_ones (t : BitVec 4) : t &&& 15#4 = t := BitVec.and_allOnes (x := t)

/-- A format NNN word under the mask of its row. -/
theorem mask_encNNN (t : BitVec 4) (nnn : BitVec 12) : encNNN t nnn &&& 0xF000#16 = encNNN t 0 := by
  have h : (0xF000#16 : Word) = encNNN 0xF 0 := by decide
  rw [h]; simp only [encNNN]; rw [BitVec.and_append]; simp [nibble_and_ones]

/-- A format XNN word under a mask that keeps the opcode nibble and the bits `m` of the low byte. -/
theorem mask_encXNN (t : BitVec 4) (x : RegIndex) (nn m : Byte) :
    encXNN t x nn &&& (0xF0#8 ++ m : Word) = encXNN t 0 (nn &&& m) := by
  have h : (0xF0#8 ++ m : Word) = encXNN 0xF 0 m := by
    have : (0xF0#8 : Byte) = 0xF#4 ++ nibble 0 := by decide
    rw [this]; rfl
  rw [h]; simp only [encXNN]; rw [BitVec.and_append, BitVec.and_append]; simp [nibble, nibble_and_ones]

/-- A format XYN word under a mask that keeps the opcode nibble and the bits `m` of the low nibble. -/
theorem mask_encXYN (t : BitVec 4) (x y : RegIndex) (n m : BitVec 4) :
    encXYN t x y n &&& (0xF00#12 ++ m : Word) = encXYN t 0 0 (n &&& m) := by
  have h : (0xF00#12 ++ m : Word) = encXYN 0xF 0 0 m := by
    have : (0xF00#12 : BitVec 12) = 0xF#4 ++ nibble 0 ++ nibble 0 := by decide
    rw [this]; rfl
  rw [h]; simp only [encXYN]; rw [BitVec.and_append, BitVec.and_append, BitVec.and_append]; simp [nibble, nibble_and_ones]

/-- A row named other than SYS owns the words its mask and match select. -/
theorem owned {i : Instr} (row : OpcodeRow) (hr : row ∈ opcodeMap) (hn : row.mnemonic = i.mnemonic)
    (hs : row.mnemonic ≠ "SYS") (hm : encode i &&& row.mask = row.bits) : Statement i :=
  fun _ => ⟨row, hr, hn, by simp [OpcodeRow.owns, hm, hs]⟩

theorem cls : Statement (.cls) :=
  owned ⟨"CLS", 0xFFFF, 0x00E0⟩ (by decide) rfl (by decide) (by decide)
theorem ret : Statement (.ret) :=
  owned ⟨"RET", 0xFFFF, 0x00EE⟩ (by decide) rfl (by decide) (by decide)
theorem sys (nnn : BitVec 12) : Statement (.sys nnn) := fun h =>
  ⟨⟨"SYS", 0xF000, 0x0000⟩, by decide, rfl, by
    have hn : sysExcluded nnn = false := by simpa [Instr.wf] using h
    have hm : encNNN 0x0#4 nnn &&& 0xF000#16 = 0x0000#16 := by rw [mask_encNNN]; decide
    simp only [OpcodeRow.owns, encode, opNNN_encNNN, hn]
    simpa using hm⟩
theorem jp (nnn : BitVec 12) : Statement (.jp nnn) :=
  owned ⟨"JP", 0xF000, 0x1000⟩ (by decide) rfl (by decide) ((mask_encNNN _ _).trans (by decide))
theorem call (nnn : BitVec 12) : Statement (.call nnn) :=
  owned ⟨"CALL", 0xF000, 0x2000⟩ (by decide) rfl (by decide) ((mask_encNNN _ _).trans (by decide))
theorem seImm (x : RegIndex) (nn : Byte) : Statement (.seImm x nn) :=
  owned ⟨"SE_IMM", 0xF000, 0x3000⟩ (by decide) rfl (by decide) ((mask_encXNN _ _ _ 0x00#8).trans (by simp; decide))
theorem sneImm (x : RegIndex) (nn : Byte) : Statement (.sneImm x nn) :=
  owned ⟨"SNE_IMM", 0xF000, 0x4000⟩ (by decide) rfl (by decide) ((mask_encXNN _ _ _ 0x00#8).trans (by simp; decide))
theorem seReg (x y : RegIndex) : Statement (.seReg x y) :=
  owned ⟨"SE_REG", 0xF00F, 0x5000⟩ (by decide) rfl (by decide) ((mask_encXYN _ _ _ _ 0xF#4).trans (by decide))
theorem ldImm (x : RegIndex) (nn : Byte) : Statement (.ldImm x nn) :=
  owned ⟨"LD_IMM", 0xF000, 0x6000⟩ (by decide) rfl (by decide) ((mask_encXNN _ _ _ 0x00#8).trans (by simp; decide))
theorem addImm (x : RegIndex) (nn : Byte) : Statement (.addImm x nn) :=
  owned ⟨"ADD_IMM", 0xF000, 0x7000⟩ (by decide) rfl (by decide) ((mask_encXNN _ _ _ 0x00#8).trans (by simp; decide))
theorem ldReg (x y : RegIndex) : Statement (.ldReg x y) :=
  owned ⟨"LD_REG", 0xF00F, 0x8000⟩ (by decide) rfl (by decide) ((mask_encXYN _ _ _ _ 0xF#4).trans (by decide))
theorem or (x y : RegIndex) : Statement (.or x y) :=
  owned ⟨"OR", 0xF00F, 0x8001⟩ (by decide) rfl (by decide) ((mask_encXYN _ _ _ _ 0xF#4).trans (by decide))
theorem and (x y : RegIndex) : Statement (.and x y) :=
  owned ⟨"AND", 0xF00F, 0x8002⟩ (by decide) rfl (by decide) ((mask_encXYN _ _ _ _ 0xF#4).trans (by decide))
theorem xor (x y : RegIndex) : Statement (.xor x y) :=
  owned ⟨"XOR", 0xF00F, 0x8003⟩ (by decide) rfl (by decide) ((mask_encXYN _ _ _ _ 0xF#4).trans (by decide))
theorem addReg (x y : RegIndex) : Statement (.addReg x y) :=
  owned ⟨"ADD_REG", 0xF00F, 0x8004⟩ (by decide) rfl (by decide) ((mask_encXYN _ _ _ _ 0xF#4).trans (by decide))
theorem sub (x y : RegIndex) : Statement (.sub x y) :=
  owned ⟨"SUB", 0xF00F, 0x8005⟩ (by decide) rfl (by decide) ((mask_encXYN _ _ _ _ 0xF#4).trans (by decide))
theorem shr (x y : RegIndex) : Statement (.shr x y) :=
  owned ⟨"SHR", 0xF00F, 0x8006⟩ (by decide) rfl (by decide) ((mask_encXYN _ _ _ _ 0xF#4).trans (by decide))
theorem subn (x y : RegIndex) : Statement (.subn x y) :=
  owned ⟨"SUBN", 0xF00F, 0x8007⟩ (by decide) rfl (by decide) ((mask_encXYN _ _ _ _ 0xF#4).trans (by decide))
theorem shl (x y : RegIndex) : Statement (.shl x y) :=
  owned ⟨"SHL", 0xF00F, 0x800E⟩ (by decide) rfl (by decide) ((mask_encXYN _ _ _ _ 0xF#4).trans (by decide))
theorem sneReg (x y : RegIndex) : Statement (.sneReg x y) :=
  owned ⟨"SNE_REG", 0xF00F, 0x9000⟩ (by decide) rfl (by decide) ((mask_encXYN _ _ _ _ 0xF#4).trans (by decide))
theorem ldI (nnn : BitVec 12) : Statement (.ldI nnn) :=
  owned ⟨"LD_I", 0xF000, 0xA000⟩ (by decide) rfl (by decide) ((mask_encNNN _ _).trans (by decide))
theorem jpV0 (nnn : BitVec 12) : Statement (.jpV0 nnn) :=
  owned ⟨"JP_V0", 0xF000, 0xB000⟩ (by decide) rfl (by decide) ((mask_encNNN _ _).trans (by decide))
theorem rnd (x : RegIndex) (nn : Byte) : Statement (.rnd x nn) :=
  owned ⟨"RND", 0xF000, 0xC000⟩ (by decide) rfl (by decide) ((mask_encXNN _ _ _ 0x00#8).trans (by simp; decide))
theorem drw (x y : RegIndex) (n : Fin 16) : Statement (.drw x y n) :=
  owned ⟨"DRW", 0xF000, 0xD000⟩ (by decide) rfl (by decide) ((mask_encXYN _ _ _ _ 0x0#4).trans (by simp; decide))
theorem skp (x : RegIndex) : Statement (.skp x) :=
  owned ⟨"SKP", 0xF0FF, 0xE09E⟩ (by decide) rfl (by decide) ((mask_encXNN _ _ _ 0xFF#8).trans (by decide))
theorem sknp (x : RegIndex) : Statement (.sknp x) :=
  owned ⟨"SKNP", 0xF0FF, 0xE0A1⟩ (by decide) rfl (by decide) ((mask_encXNN _ _ _ 0xFF#8).trans (by decide))
theorem ldVxDt (x : RegIndex) : Statement (.ldVxDt x) :=
  owned ⟨"LD_VX_DT", 0xF0FF, 0xF007⟩ (by decide) rfl (by decide) ((mask_encXNN _ _ _ 0xFF#8).trans (by decide))
theorem ldVxK (x : RegIndex) : Statement (.ldVxK x) :=
  owned ⟨"LD_VX_K", 0xF0FF, 0xF00A⟩ (by decide) rfl (by decide) ((mask_encXNN _ _ _ 0xFF#8).trans (by decide))
theorem ldDtVx (x : RegIndex) : Statement (.ldDtVx x) :=
  owned ⟨"LD_DT_VX", 0xF0FF, 0xF015⟩ (by decide) rfl (by decide) ((mask_encXNN _ _ _ 0xFF#8).trans (by decide))
theorem ldStVx (x : RegIndex) : Statement (.ldStVx x) :=
  owned ⟨"LD_ST_VX", 0xF0FF, 0xF018⟩ (by decide) rfl (by decide) ((mask_encXNN _ _ _ 0xFF#8).trans (by decide))
theorem addI (x : RegIndex) : Statement (.addI x) :=
  owned ⟨"ADD_I", 0xF0FF, 0xF01E⟩ (by decide) rfl (by decide) ((mask_encXNN _ _ _ 0xFF#8).trans (by decide))
theorem ldF (x : RegIndex) : Statement (.ldF x) :=
  owned ⟨"LD_F", 0xF0FF, 0xF029⟩ (by decide) rfl (by decide) ((mask_encXNN _ _ _ 0xFF#8).trans (by decide))
theorem ldB (x : RegIndex) : Statement (.ldB x) :=
  owned ⟨"LD_B", 0xF0FF, 0xF033⟩ (by decide) rfl (by decide) ((mask_encXNN _ _ _ 0xFF#8).trans (by decide))
theorem ldMemV (x : RegIndex) : Statement (.ldMemV x) :=
  owned ⟨"LD_MEM_V", 0xF0FF, 0xF055⟩ (by decide) rfl (by decide) ((mask_encXNN _ _ _ 0xFF#8).trans (by decide))
theorem ldVMem (x : RegIndex) : Statement (.ldVMem x) :=
  owned ⟨"LD_V_MEM", 0xF0FF, 0xF065⟩ (by decide) rfl (by decide) ((mask_encXNN _ _ _ 0xFF#8).trans (by decide))

end Sys2Proof.Laws.OwnedByItsRow
end

