-- ==== Sys2Proof/Tests/Slice0.lean ====
section
/-! SUPPORT. Tests of the model, each on one word or one operation, with the expected results of spec/95_test_vectors.md and of
the examples in the rules; and for every statement with hypotheses a witness that meets them together. -/

namespace Sys2Proof.Tests

open Sys2Proof.Machine Sys2Proof.Safety

set_option exponentiation.threshold 4096
set_option maxRecDepth 20000

/-! ### Helpers -/

/-- The result of a cycle that begins in `s` with the word `w` at `pc`, if it answers. -/
def cycled (w : Nat) (s : State) : Option CycleResult :=
  match cycle (s.withFetchWord 16 w) with
  | .next r => some r
  | .fault _ => none
  | .refused _ => none

/-- One observation of such a result. -/
def after {α : Type} (w : Nat) (s : State) (f : State → α) : Option α := (cycled w s).map fun r => f r.state

/-- The two outputs of such a cycle. -/
def outputs (w : Nat) (s : State) : Option (Status × Bool) := (cycled w s).map fun r => (r.status, r.beep)

/-- The Reset state with some registers set. -/
def withRegs (l : List (RegIndex × Byte)) : State := l.foldl (fun s p => s.setReg p.1 p.2) State.reset

/-- The Reset state with `I` at 0x300, some registers set and bytes at 0x300. -/
def withSprite (l : List (RegIndex × Byte)) (bs : List Byte) : State :=
  ((withRegs l).setI 0x300#16).storeBytes 0x300#16 bs

/-- A framebuffer with the listed cells set. -/
def lit (cells : List Nat) : BitVec 2048 := cells.foldl (fun fb L => fb ||| BitVec.twoPow 2048 L) 0

/-- The bytes at the listed addresses. -/
def bytes (as : List Word) (s : State) : List Byte := as.map s.memRead

/-! ### Well-formed terms -/

theorem test_wf_refuses_sys_of_zero : (Instr.sys 0x000).wf = false := by decide
theorem test_wf_refuses_sys_of_excluded_edges :
    (Instr.sys 0x0E0).wf = false ∧ (Instr.sys 0x0EE).wf = false ∧ (Instr.sys 0x0EF).wf = false := by decide
theorem test_wf_admits_sys_beside_the_excluded :
    (Instr.sys 0x001).wf = true ∧ (Instr.sys 0x0DF).wf = true ∧ (Instr.sys 0x0F0).wf = true ∧ (Instr.sys 0xFFF).wf = true := by
  decide

/-! ### Decoding: one word of every row, written out from R74 and the examples -/

theorem test_decode_family_0 : decodeWord 0x00E0 = some .cls ∧ decodeWord 0x00EE = some .ret ∧
    decodeWord 0x0234 = some (.sys 0x234) := by decide
theorem test_decode_families_1_to_4 : decodeWord 0x1ABC = some (.jp 0xABC) ∧ decodeWord 0x2300 = some (.call 0x300) ∧
    decodeWord 0x332A = some (.seImm 3 0x2A) ∧ decodeWord 0x4A1F = some (.sneImm 10 0x1F) := by decide
theorem test_decode_families_5_to_7 : decodeWord 0x5120 = some (.seReg 1 2) ∧ decodeWord 0x6A05 = some (.ldImm 10 5) ∧
    decodeWord 0x7A03 = some (.addImm 10 3) := by decide
theorem test_decode_family_8_logic : decodeWord 0x8120 = some (.ldReg 1 2) ∧ decodeWord 0x8121 = some (.or 1 2) ∧
    decodeWord 0x8122 = some (.and 1 2) ∧ decodeWord 0x8123 = some (.xor 1 2) := by decide
theorem test_decode_family_8_arithmetic : decodeWord 0x8124 = some (.addReg 1 2) ∧ decodeWord 0x8125 = some (.sub 1 2) ∧
    decodeWord 0x8126 = some (.shr 1 2) ∧ decodeWord 0x8127 = some (.subn 1 2) ∧ decodeWord 0x812E = some (.shl 1 2) := by
  decide
theorem test_decode_families_9_to_D : decodeWord 0x9120 = some (.sneReg 1 2) ∧ decodeWord 0xA2F0 = some (.ldI 0x2F0) ∧
    decodeWord 0xB300 = some (.jpV0 0x300) ∧ decodeWord 0xC30F = some (.rnd 3 0x0F) ∧
    decodeWord 0xD125 = some (.drw 1 2 5) := by decide
theorem test_decode_family_E : decodeWord 0xE29E = some (.skp 2) ∧ decodeWord 0xE2A1 = some (.sknp 2) := by decide
theorem test_decode_family_F_keys_and_timers : decodeWord 0xF307 = some (.ldVxDt 3) ∧ decodeWord 0xF30A = some (.ldVxK 3) ∧
    decodeWord 0xF315 = some (.ldDtVx 3) ∧ decodeWord 0xF318 = some (.ldStVx 3) := by decide
theorem test_decode_family_F_memory : decodeWord 0xF41E = some (.addI 4) ∧ decodeWord 0xF229 = some (.ldF 2) ∧
    decodeWord 0xF533 = some (.ldB 5) ∧ decodeWord 0xF255 = some (.ldMemV 2) ∧ decodeWord 0xF265 = some (.ldVMem 2) := by
  decide
/-- Table B1, rows 25 to 28. -/
theorem test_decode_unknown : ∀ w ∈ [0x0000, 0x00E1, 0x00ED, 0x00EF, 0x5121, 0x9121, 0x8128, 0x812F, 0xE19F, 0xE100, 0xF1FF,
    0xF100], decodeTableWord 16 w = none := by decide
/-- The first byte of an instruction is its high byte (R70). -/
theorem test_decode_byte_order : decodeBytes [0x6A, 0x05, 0x7A] = .instr (.ldImm 10 5) [0x7A] := by decide
theorem test_decode_truncated : decodeBytes [0x6A] = .rejected .truncated ∧ decodeBytes [] = .rejected .truncated := by decide
theorem test_decode_unknown_is_named : decodeBytes [0x51, 0x21] = .rejected (.unknownOpcode 0x5121) := by decide

/-! ### System and control (table B1) -/

theorem test_sys : after 0x0234 State.reset (fun t => (t.halt, t.pc)) = some (1#3, 0x200#16) ∧
    outputs 0x0234 State.reset = some (.fatal, false) := by decide
theorem test_jp : after 0x1ABC State.reset State.pc = some 0x0ABC#16 := by decide
theorem test_call_sixteenth_entry : after 0x2300 { State.reset with pc := 0x204#16, sp := 15 }
    (fun t => (t.stackCell 15, t.sp, t.pc)) = some (0x0204#16, 16, 0x0300#16) := by decide
theorem test_call_overflow : after 0x2300 { State.reset with pc := 0x204#16, sp := 16, dt := 5 }
    (fun t => (t.halt, t.sp, t.pc, t.dt)) = some (2#3, 16, 0x0204#16, 5#8) := by decide
theorem test_ret_adds_two_and_wraps :
    after 0x00EE { State.reset with sp := 1, stack := State.reset.stack.set 0 0xFFFE#16 } (fun t => (t.sp, t.pc, t.stackCell 0)) =
      some (0, 0#16, 0xFFFE#16) := by decide
theorem test_ret_underflow : after 0x00EE State.reset (fun t => (t.halt, t.pc)) = some (3#3, 0x200#16) := by decide
theorem test_seImm_taken : after 0x332A (withRegs [(3, 0x2A)]) State.pc = some 0x204#16 := by decide
theorem test_seImm_not_taken : after 0x332B (withRegs [(3, 0x2A)]) State.pc = some 0x202#16 := by decide
theorem test_sneImm_not_taken : after 0x432A (withRegs [(3, 0x2A)]) State.pc = some 0x202#16 := by decide
theorem test_sneImm_taken : after 0x4300 (withRegs [(3, 0x2A)]) State.pc = some 0x204#16 := by decide
theorem test_seReg_taken : after 0x5120 (withRegs [(1, 7), (2, 7)]) State.pc = some 0x204#16 := by decide
theorem test_seReg_not_taken : after 0x5120 (withRegs [(1, 7), (2, 8)]) State.pc = some 0x202#16 := by decide
theorem test_sneReg_taken : after 0x9120 (withRegs [(1, 7), (2, 8)]) State.pc = some 0x204#16 := by decide
theorem test_sneReg_not_taken : after 0x9120 (withRegs [(1, 7), (2, 7)]) State.pc = some 0x202#16 := by decide
theorem test_jpV0_is_not_masked : after 0xBFFF (withRegs [(0, 0xFF)]) State.pc = some 0x10FE#16 := by decide

/-! ### The cycle (table B1, rows 19 to 30; table B5, rows 15 and 16) -/

/-- The fetch at 0x0FFF takes its second byte from address 0x000. -/
theorem test_fetch_wraps : (({ State.reset with pc := 0x0FFF#16 }.memWrite 0x0FFF#16 0x6A).memWrite 0#16 0x05).fetch = 0x6A05#16 := by
  decide
/-- The fetch at an odd address above the memory uses the low 12 bits of `pc`. -/
theorem test_fetch_odd_and_masked :
    (({ State.reset with pc := 0x1201#16 }.memWrite 0x201#16 0x6A).memWrite 0x202#16 0x09).fetch = 0x6A09#16 := by decide
theorem test_pc_wraps : after 0x6A05 { State.reset with pc := 0xFFFE#16 } (fun t => (t.reg 10, t.pc)) = some (5#8, 0#16) := by
  decide
theorem test_unknown_ticks_and_beeps : after 0x8128 { State.reset with dt := 5, st := 1 } (fun t => (t.dt, t.st, t.pc)) =
      some (4#8, 0#8, 0x200#16) ∧
    outputs 0x8128 { State.reset with dt := 5, st := 1 } = some (.unknownOpcode, true) := by decide
theorem test_halted_does_nothing : after 0x1ABC { State.reset with halt := 2#3, dt := 5, st := 1 } (fun t => (t.pc, t.dt, t.st)) =
      some (0x200#16, 5#8, 1#8) ∧
    outputs 0x1ABC { State.reset with halt := 2#3, st := 1 } = some (.halted, false) := by decide
theorem test_any_cycle_ticks : after 0x6000 { State.reset with dt := 1, st := 1 } (fun t => (t.dt, t.st)) = some (0#8, 0#8) ∧
    outputs 0x6000 { State.reset with dt := 1, st := 1 } = some (.progress, true) ∧
    outputs 0x6000 { State.reset with st := 2 } = some (.progress, false) := by decide

/-! ### Loads and arithmetic (table B2) -/

theorem test_ldImm : after 0x6A05 State.reset (fun t => t.reg 10) = some 5#8 := by decide
theorem test_addImm_wraps_without_flag : after 0x7AFF (withRegs [(10, 1)]) (fun t => (t.reg 10, t.reg 15)) = some (0#8, 0#8) := by
  decide
theorem test_addImm_to_VF : after 0x7F02 (withRegs [(15, 0xFF)]) (fun t => t.reg 15) = some 1#8 := by decide
theorem test_ldReg : after 0x8120 (withRegs [(2, 0x5C)]) (fun t => (t.reg 1, t.reg 2)) = some (0x5C#8, 0x5C#8) := by decide
theorem test_or : after 0x8121 (withRegs [(1, 0xF0), (2, 0x3C), (15, 0x77)]) (fun t => (t.reg 1, t.reg 15)) =
    some (0xFC#8, 0x77#8) := by decide
theorem test_and : after 0x8122 (withRegs [(1, 0xF0), (2, 0x3C), (15, 0x77)]) (fun t => (t.reg 1, t.reg 15)) =
    some (0x30#8, 0x77#8) := by decide
theorem test_xor : after 0x8123 (withRegs [(1, 0xF0), (2, 0x3C), (15, 0x77)]) (fun t => (t.reg 1, t.reg 15)) =
    some (0xCC#8, 0x77#8) := by decide
theorem test_addReg_sum_255_is_no_carry : after 0x8124 (withRegs [(1, 0x80), (2, 0x7F), (15, 9)]) (fun t => (t.reg 1, t.reg 15)) =
    some (0xFF#8, 0#8) := by decide
theorem test_addReg_flag_wins_in_VF : after 0x8F14 (withRegs [(15, 0xF0), (1, 0x20)]) (fun t => (t.reg 15, t.reg 1)) =
    some (1#8, 0x20#8) := by decide
theorem test_sub_borrow : after 0x8125 (withRegs [(1, 5), (2, 7)]) (fun t => (t.reg 1, t.reg 15)) = some (0xFE#8, 0#8) := by
  decide
theorem test_sub_equal_operands : after 0x8125 (withRegs [(1, 0x33), (2, 0x33), (15, 1)]) (fun t => (t.reg 1, t.reg 15)) =
    some (0#8, 0#8) := by decide
theorem test_subn : after 0x8127 (withRegs [(1, 0x10), (2, 0x20)]) (fun t => (t.reg 1, t.reg 15)) = some (0x10#8, 1#8) := by
  decide
theorem test_subn_borrow : after 0x8127 (withRegs [(1, 0x20), (2, 0x10)]) (fun t => (t.reg 1, t.reg 15)) = some (0xF0#8, 0#8) := by
  decide
theorem test_shr_shifts_Vy : after 0x8126 (withRegs [(1, 0xFF), (2, 5)]) (fun t => (t.reg 1, t.reg 2, t.reg 15)) =
    some (2#8, 5#8, 1#8) := by decide
theorem test_shr_flag_wins_in_VF : after 0x8F26 (withRegs [(2, 4), (15, 0x55)]) (fun t => t.reg 15) = some 0#8 := by decide
theorem test_shl_shifts_Vy : after 0x812E (withRegs [(2, 0x81)]) (fun t => (t.reg 1, t.reg 2, t.reg 15)) =
    some (2#8, 0x81#8, 1#8) := by decide
theorem test_shl_no_carry : after 0x812E (withRegs [(2, 0x7F), (15, 9)]) (fun t => (t.reg 1, t.reg 15)) = some (0xFE#8, 0#8) := by
  decide
/-- Table B2, row 38: the input A7 under the mask 0F. -/
theorem test_rnd_masks : ((State.reset.loadRnd 0xA7 3 0x0F).reg 3, (State.reset.loadRnd 0xA7 3 0x0F).pc) = (7#8, 0x202#16) := by
  decide
/-- Table B2, row 40: a zero mask gives zero whatever the input is. -/
theorem test_rnd_zero_mask : after 0xC300 (withRegs [(3, 9)]) (fun t => (t.pc, t.draws)) = some (0x202#16, 1) := by decide

/-! ### Index and memory (table B3) -/

theorem test_ldI : after 0xA2F0 { State.reset with i := 0xFFFF#16 } State.i = some 0x02F0#16 := by decide
theorem test_addI_passes_4096_without_flag : after 0xF41E ((withRegs [(4, 1)]).setI 0x0FFF#16) (fun t => (t.i, t.reg 15)) =
    some (0x1000#16, 0#8) := by decide
theorem test_addI_wraps : after 0xF41E ((withRegs [(4, 1)]).setI 0xFFFF#16) State.i = some 0#16 := by decide
theorem test_ldF : after 0xF229 (withRegs [(2, 0x0A)]) State.i = some 0x0082#16 := by decide
theorem test_ldF_beyond_the_font : after 0xF229 (withRegs [(2, 0xFF)]) State.i = some 0x054B#16 := by decide
theorem test_ldB : after 0xF533 (withSprite [(5, 157)] []) (fun t => (bytes [0x300, 0x301, 0x302] t, t.i)) =
    some ([1, 5, 7], 0x300#16) := by decide
theorem test_ldB_wraps : after 0xF533 ((withRegs [(5, 0xEA)]).setI 0x0FFE#16) (bytes [0xFFE, 0xFFF, 0x000]) = some [2, 3, 4] := by
  decide
theorem test_ldMemV : after 0xF255 (withSprite [(0, 0x11), (1, 0x22), (2, 0x33), (3, 0x44)] [])
    (fun t => (bytes [0x300, 0x301, 0x302, 0x303] t, t.i)) = some ([0x11, 0x22, 0x33, 0], 0x303#16) := by decide
theorem test_ldMemV_wraps : after 0xF155 ((withRegs [(0, 0xAA), (1, 0xBB)]).setI 0x0FFF#16)
    (fun t => (bytes [0xFFF, 0x000] t, t.i)) = some ([0xAA, 0xBB], 0x1001#16) := by decide
theorem test_ldVMem : after 0xF165 (withSprite [(2, 0x77)] [0xAA, 0xBB, 0xCC]) (fun t => (t.reg 0, t.reg 1, t.reg 2, t.i)) =
    some (0xAA#8, 0xBB#8, 0x77#8, 0x302#16) := by decide
theorem test_ldVMem_loads_VF_as_data : after 0xFF65 (withSprite [] [1, 2, 3, 4, 5, 6, 7, 8, 9, 10, 11, 12, 13, 14, 15, 16])
    (fun t => (t.reg 15, t.i)) = some (0x10#8, 0x310#16) := by decide

/-! ### Display (table B4), by `drawSprite` where a row names `DRAW_OOB` -/

theorem test_cls : after 0x00E0 { State.reset with fb := lit [0, 100, 2047] } (fun t => (t.fb, t.dirty, t.pc)) =
    some (0, true, 0x202#16) := by decide
/-- Rows 7, 3 and 5: the spill into the next display row under any `DRAW_OOB`, a collision, no rows. -/
theorem test_drw_inside : (∀ mode ∈ [DrawOob.clip, .wrap, .fault],
      ((withSprite [] [0xF0]).drawSprite mode 0x3E 0 1).fb = lit [62, 63, 64, 65]) ∧
    after 0xD011 { withSprite [] [0x80] with fb := lit [0] } (fun t => (t.fb, t.reg 15, t.dirty, t.pc)) =
      some (0, 1#8, true, 0x202#16) ∧
    after 0xD010 (withSprite [(15, 7)] [0x80]) (fun t => (t.fb, t.reg 15, t.dirty)) = some (0, 0#8, true) := by decide
/-- Rows 8a, 8b, 14 and 8c: clipped, wrapped, wrapped from the largest coordinates, and raised with nothing committed. -/
theorem test_drw_outside : ((withSprite [] [0xC0, 0xC0]).drawSprite .clip 4 0x1F 2).fb = lit [1988, 1989] ∧
    ((withSprite [] [0xC0, 0xC0]).drawSprite .wrap 4 0x1F 2).fb = lit [1988, 1989, 4, 5] ∧
    ((withSprite [] [0x01]).drawSprite .wrap 0xFF 0xFF 1).fb = lit [198] ∧
    (withSprite [] [0xC0, 0xC0]).drawSprite .fault 4 0x1F 2 = { withSprite [] [0xC0, 0xC0] with halt := 4#3 } := by decide

/-! ### Keypad and timers (table B5) -/

theorem test_skp_low_nibble : after 0xE29E { withRegs [(2, 0x1A)] with keys := 0x0400 } State.pc = some 0x204#16 := by decide
theorem test_skp_not_pressed : after 0xE29E (withRegs [(2, 5)]) State.pc = some 0x202#16 := by decide
theorem test_sknp_pressed : after 0xE2A1 { withRegs [(2, 5)] with keys := 0x0020 } State.pc = some 0x202#16 := by decide
theorem test_sknp_not_pressed : after 0xE2A1 (withRegs [(2, 5)]) State.pc = some 0x204#16 := by decide
theorem test_ldVxK_waits : after 0xF30A { withRegs [(3, 0x99)] with dt := 4 } (fun t => (t.reg 3, t.pc, t.dt)) =
      some (0x99#8, 0x200#16, 3#8) ∧
    outputs 0xF30A { withRegs [(3, 0x99)] with dt := 4 } = some (.awaitingKey, false) := by decide
theorem test_ldVxK_takes_the_highest : after 0xF30A { withRegs [(3, 0x99)] with keys := 0x1008 } (fun t => (t.reg 3, t.pc)) =
      some (0x0C#8, 0x202#16) ∧
    outputs 0xF30A { withRegs [(3, 0x99)] with keys := 0x1008 } = some (.progress, false) := by decide
theorem test_ldVxDt_reads_before_the_tick : after 0xF307 { State.reset with dt := 0x10 } (fun t => (t.reg 3, t.dt)) =
    some (0x10#8, 0x0F#8) := by decide
theorem test_ldDtVx_ticks_at_once : after 0xF315 (withRegs [(3, 3)]) State.dt = some 2#8 := by decide
theorem test_ldStVx_one_beeps : after 0xF318 (withRegs [(3, 1)]) State.st = some 0#8 ∧
    outputs 0xF318 (withRegs [(3, 1)]) = some (.progress, true) := by decide
theorem test_ldStVx_zero_does_not_beep : after 0xF318 { withRegs [(3, 0)] with st := 1 } State.st = some 0#8 ∧
    outputs 0xF318 { withRegs [(3, 0)] with st := 1 } = some (.progress, false) := by decide

/-! ### Host operations (the end of Part B) -/

theorem test_setKey_presses_and_releases : (hostSetKey 7 true State.reset).1.keys = 0x0080 ∧
    (hostSetKey 7 false { State.reset with keys := 0x0081 }).1.keys = 0x0001 := by decide
theorem test_setKey_bad_index : hostSetKey 16 true State.reset = (State.reset, .badKeyIndex) := by decide
theorem test_load_copies : bytes [0x1FF, 0x200, 0x201, 0x202] (hostLoad [0x12, 0x34] State.reset).1 = [0, 0x12, 0x34, 0] ∧
    (hostLoad [0x12, 0x34] State.reset).2 = .ok := by decide
theorem test_load_too_long : (hostLoad (List.replicate 3585 1) State.reset).2 = .capacityExceeded ∧
    (hostLoad (List.replicate 3585 1) State.reset).1.mem = [] := by decide
theorem test_load_nothing : hostLoad [] State.reset = (State.reset, .ok) := by decide
theorem test_clearDirty : (hostClearDirty { State.reset with fb := lit [5], dirty := true }).dirty = false ∧
    (hostClearDirty { State.reset with fb := lit [5], dirty := true }).fb = lit [5] := by decide
theorem test_readStatus : hostReadStatus { State.reset with halt := 3#3 } = 3#3 := by decide
theorem test_reset_restores_memory : (hostReset (State.reset.memWrite 0x300#16 7)).memRead 0x300#16 = 0 := by decide
/-- A write of the reset contents removes the entry: equal memories are equal data. -/
theorem test_memory_is_canonical : ((State.reset.memWrite 0x300#16 7).memWrite 0x1300#16 0).mem = [] := by decide

/-! ### Witnesses: concrete inputs that meet the hypotheses of the statements -/

/-- A running machine at `LD B, V5` with memory written. -/
def busy : State := (withSprite [(5, 157)] [1, 2, 3]).withFetchWord 16 0xF533

theorem witness_DecodeOfEncode : (Instr.sys 0x0F0).wf = true ∧ (Instr.drw 15 15 15).wf = true := by decide
theorem witness_EncodeOfDecode : decodeWord 0x8FFE = some (.shl 15 15) := by decide
theorem witness_OpcodeMapRows : (⟨"SYS", 0xF000, 0x0000⟩ : OpcodeRow) ∈ opcodeMap ∧
    (⟨"LD_V_MEM", 0xF0FF, 0xF065⟩ : OpcodeRow) ∈ opcodeMap := by decide
theorem witness_StepKeepsTheInvariant : Sys2Proof.Safety.Inv busy ∧ ∃ t, step busy = .next t := ⟨by unfold Sys2Proof.Safety.Inv; decide, _, rfl⟩
theorem witness_ReachableStates : ∃ s : State, Reachable s ∧ s.memRead 0x200#16 = 0x12 ∧ s.key 7 = true :=
  ⟨(hostSetKey 7 true (hostLoad [0x12, 0x00] State.reset).1).1,
    .perform (.perform (.reset 0) (op := .load [0x12, 0x00]) rfl) (op := .setKey 7 true) rfl, by decide, by decide⟩
theorem witness_StepRuns : busy.halt = 0#3 ∧
    decodeBytes [busy.memRead busy.pc, busy.memRead (busy.pc + 1#16)] = .instr (.ldB 5) [] := by decide
theorem witness_Tick_ticks : ∃ t, exec (.ldB 5) busy = .next t ∧ t.halt = 0#3 := ⟨_, rfl, by decide⟩
theorem witness_Tick_raised : ∃ t, exec (.sys 0x234) (State.reset.withFetchWord 16 0x0234) = .next t ∧ t.halt ≠ 0#3 ∧
    decodeBytes [(State.reset.withFetchWord 16 0x0234).memRead 0x200#16, (State.reset.withFetchWord 16 0x0234).memRead 0x201#16] =
      .instr (.sys 0x234) [] := ⟨_, rfl, by decide, by decide⟩
theorem witness_Beep : ∃ r, cycle ({ withRegs [(3, 1)] with pc := 0x200#16 }.withFetchWord 16 0xF318) = .next r ∧ r.beep = true :=
  ⟨_, rfl, by decide⟩
theorem witness_UnknownOpcodeIsHeld : Stuck { State.reset with dt := 255, st := 1 } := by unfold Stuck; decide
theorem witness_HaltedCore : Faulted { State.reset with halt := 4#3 } := by unfold Faulted; decide
theorem witness_SelfJump : Finished ({ State.reset with dt := 1 }.withFetchWord 16 0x1200) :=
  ⟨by decide, 0x200#12, by decide, by decide⟩

/-- A running machine at `LD [I], V1` with `I` just after it. -/
def selfModifying : State := ((withRegs [(0, 0x12), (1, 0x00)]).setI 0x202#16).withFetchWord 16 0xF155

theorem witness_StoreOverTheNext : Memory.wf selfModifying.mem = true ∧ selfModifying.halt = 0#3 ∧
    decodeWord selfModifying.fetch = some (.ldMemV 1) ∧ selfModifying.i = selfModifying.pc + 2#16 := by decide
theorem witness_OnlyFour_stack : (∃ t, exec (.call 0x300) { State.reset with sp := 16 } = .next t ∧ t.halt = 2#3) ∧
    (∃ t, exec .ret State.reset = .next t ∧ t.halt = 3#3) := ⟨⟨_, rfl, by decide⟩, _, rfl, by decide⟩
theorem witness_OnlyFour_sys : ∃ t, exec (.sys 0x001) State.reset = .next t ∧ t.halt = 1#3 := ⟨_, rfl, by decide⟩
theorem witness_OnlyTheListedWrite : (∃ t, exec (.ldB 5) busy = .next t) ∧ ¬ mayWriteReg (.ldB 5) 5 ∧
    (Instr.ldB 5).mnemonic ∉ ["LD_I", "ADD_I", "LD_F", "LD_MEM_V", "LD_V_MEM"] := ⟨⟨_, rfl⟩, id, by decide⟩
theorem witness_OnlyKeyInstructions : (Instr.drw 1 2 3).mnemonic ∉ ["SKP", "SKNP", "LD_VX_K"] := by decide
theorem witness_FramebufferReaches : (Instr.ldReg 15 1).mnemonic ≠ "DRW" ∧ (14 : RegIndex) ≠ 15 := by decide
theorem witness_Sys : (State.reset.withFetchWord 16 0x0FFF).halt = 0#3 ∧
    decodeWord (State.reset.withFetchWord 16 0x0FFF).fetch = some (.sys 0xFFF) := by decide
theorem witness_Call : ({ State.reset with sp := 15 } : State).sp.val < 16 ∧ ({ State.reset with sp := 16 } : State).sp.val = 16 := by
  decide
theorem witness_Return : ({ State.reset with sp := 16 } : State).sp.val = (15 : Fin 16).val + 1 ∧ State.reset.sp.val = 0 := by decide
theorem witness_NestedCalls : (List.replicate 16 0x300#12) ≠ [] ∧ State.reset.sp.val + (List.replicate 16 0x300#12).length ≤ 16 := by
  decide
theorem witness_KeySkips : (10 : Fin 16).val = ((withRegs [(2, 0x1A)]).reg 2).toNat % 16 := by decide
theorem witness_Stores : Memory.wf busy.mem = true ∧ busy.mem ≠ [] ∧ (0x303#16).toNat % 4096 ≠ (busy.i.toNat + 2) % 4096 := by
  decide
theorem witness_StoreThenLoad : ∃ s t t' u : State, Memory.wf s.mem = true ∧ exec (.ldMemV 1) s = .next t ∧ t'.i = s.i ∧
    (∀ a, t'.memRead a = t.memRead a) ∧ exec (.ldVMem 1) t' = .next u ∧ s.reg 0 = 0x11 :=
  ⟨withSprite [(0, 0x11), (1, 0x22)] [], _, ((withSprite [(0, 0x11), (1, 0x22)] []).storeBytes 0x300#16 [0x11, 0x22]).setReg 0 9, _,
    by decide, rfl, by decide, fun _ => rfl, rfl, by decide⟩

/-- The sprites of the display tests, two rows of `C0` at 0x300. -/
def sprite : State := withSprite [] [0xC0, 0xC0]

theorem witness_Draw_raises : SomePixelOutside sprite 4 0x1F 2 :=
  ⟨2052, State.mem_spritePixels.mp (by decide), by decide⟩
theorem witness_Draw_draws : ¬ SomePixelOutside sprite 4 0x1E 2 := by
  rintro ⟨L, h, hL⟩
  have : ∀ L ∈ sprite.spritePixels 4 0x1E 2, L < 2048 := by decide
  exact absurd (this L (State.mem_spritePixels.mpr h)) (by omega)
theorem witness_DrawInside : ∀ L, SetPixel sprite (sprite.reg 0) (sprite.reg 1) 2 L → L < 2048 := by
  have : ∀ L ∈ sprite.spritePixels (sprite.reg 0) (sprite.reg 1) 2, L < 2048 := by decide
  exact fun L h => this L (State.mem_spritePixels.mpr h)
theorem witness_DrawTwice : sprite.halt = 0#3 ∧ (sprite.drawSprite .wrap 4 0x1F 2).halt = 0#3 ∧
    (sprite.drawSprite .wrap 4 0x1F 2).cell 5 = true := by decide
theorem witness_DrawSafeArea : (56#8).toNat ≤ 56 ∧ (17#8).toNat + (15 : Fin 16).val ≤ 32 := by decide
theorem witness_WaitForKey_waits : ∀ k, State.reset.key k = false := by decide
theorem witness_WaitForKey_takes : ({ State.reset with keys := 0x1008 } : State).key 12 = true ∧
    ∀ j, ({ State.reset with keys := 0x1008 } : State).key j = true → j.val ≤ (12 : Fin 16).val := by decide
theorem witness_SettingATimer : decodeWord ((withRegs [(3, 1)]).withFetchWord 16 0xF315).fetch = some (.ldDtVx 3) ∧
    decodeWord ((withRegs [(3, 1)]).withFetchWord 16 0xF318).fetch = some (.ldStVx 3) ∧
    ((withRegs [(3, 1)]).withFetchWord 16 0xF318).halt = 0#3 := by decide
theorem witness_Load : Memory.wf busy.mem = true ∧ (List.replicate 3584 (1 : Byte)).length ≤ 3584 ∧
    3584 < (List.replicate 3585 (1 : Byte)).length := by
  exact ⟨by decide, by rw [List.length_replicate], by rw [List.length_replicate]; decide⟩
theorem witness_ProgramStarts : ([0x12, 0x00] : List Byte).length ≤ 3584 := by decide
theorem witness_SetKey : (15 : Nat) ≤ 15 ∧ (16 : Nat) ≤ 16 := by decide

end Sys2Proof.Tests
end

/-! ## Encoding (30_encoding.md): decoding is a left inverse of encoding -/

namespace Sys2Proof

/-! ### Which family's decoder a word reaches -/

theorem decodeWord_family0 {op : Word} (h : opT op = 0x0#4) : decodeWord op = decodeFamily0 op := by
  simp [decodeWord, h]

theorem decodeWord_family8 {op : Word} (h : opT op = 0x8#4) : decodeWord op = decodeFamily8 op := by
  simp [decodeWord, h]

theorem decodeWord_familyE {op : Word} (h : opT op = 0xE#4) : decodeWord op = decodeFamilyE op := by
  simp [decodeWord, h]

theorem decodeWord_familyF {op : Word} (h : opT op = 0xF#4) : decodeWord op = decodeFamilyF op := by
  simp [decodeWord, h]

/-! ### SYS, the lowest priority of family 0x0 -/

/-- The word of a SYS outside the excluded operands is neither CLS nor RET, whose operands are excluded (R81). -/
theorem decodeFamily0_sys {nnn : BitVec 12} (h : sysExcluded nnn = false) :
    decodeFamily0 (encNNN 0x0#4 nnn) = some (.sys nnn) := by
  have excluded_ne {w : Word} (hw : sysExcluded (opNNN w) = true) : encNNN 0x0#4 nnn ≠ w := by
    rintro rfl
    rw [opNNN_encNNN, h] at hw
    exact Bool.false_ne_true hw
  have hcls : encNNN 0x0#4 nnn ≠ 0x00E0#16 := excluded_ne (by decide)
  have hret : encNNN 0x0#4 nnn ≠ 0x00EE#16 := excluded_ne (by decide)
  simp [decodeFamily0, hcls, hret, h]

/-! ### Words and bytes -/

/-- The word of a well-formed instruction decodes to it (R71 to R74). Outside family 0x0 the fields of the word alone say
so; well-formedness is needed for SYS only. -/
theorem decodeWord_encode {i : Instr} (h : i.wf = true) : decodeWord (encode i) = some i := by
  cases i with
  | cls | ret => rfl
  | sys nnn =>
    have hn : sysExcluded nnn = false := by simpa [Instr.wf] using h
    exact (decodeWord_family0 (opT_encNNN _ _)).trans (decodeFamily0_sys hn)
  | jp nnn | call nnn | seImm x nn | sneImm x nn | seReg x y | ldImm x nn | addImm x nn | sneReg x y | ldI nnn | jpV0 nnn
  | rnd x nn | drw x y n => simp [encode, decodeWord]
  | ldReg x y | or x y | and x y | xor x y | addReg x y | sub x y | shr x y | subn x y | shl x y =>
    exact (decodeWord_family8 (opT_encXYN _ _ _ _)).trans (by simp [decodeFamily8])
  | skp x | sknp x =>
    exact (decodeWord_familyE (opT_encXNN _ _ _)).trans (by simp [decodeFamilyE])
  | ldVxDt x | ldVxK x | ldDtVx x | ldStVx x | addI x | ldF x | ldB x | ldMemV x | ldVMem x =>
    exact (decodeWord_familyF (opT_encXNN _ _ _)).trans (by simp [decodeFamilyF])

/-- The numbering of spec/opcode_table.json adds nothing: the two bytes of the numbered word compose to it. -/
theorem decodeTableWord_eq (nbits w : Nat) :
    decodeTableWord nbits w = decodeWord (BitVec.ofNat 16 (w % 2 ^ nbits)) := by
  cases hd : decodeWord (BitVec.ofNat 16 (w % 2 ^ nbits)) <;>
    simp [decodeTableWord, decodeBytes, hd]

/-- A numbered word that is the word of a well-formed instruction decodes to it. -/
theorem decodeTableWord_of_encode {i : Instr} {nbits w : Nat} (hwf : i.wf = true)
    (hw : BitVec.ofNat 16 (w % 2 ^ nbits) = encode i) : decodeTableWord nbits w = some i := by
  rw [decodeTableWord_eq, hw, decodeWord_encode hwf]

/-! ### The statements -/

/-- Settles O1: the two bytes compose to the instruction's word, and that word decodes to it. -/
theorem decodeOfEncodeIsTheInstruction : Obligations.DecodeOfEncodeIsTheInstruction := by
  intro i rest hwf
  have hdec : decodeWord (composeWord (highByte (encode i)) (lowByte (encode i))) = some i := by
    rw [composeWord_bytes, decodeWord_encode hwf]
  exact (decodeBytes_cons _ _ rest i rest).mpr ⟨hdec, rfl⟩

/-- Settles O5: each of the eleven words is the word of the named instruction; the last two are evaluated. -/
theorem writtenOutWordsDecode : Obligations.WrittenOutWordsDecode := by
  refine ⟨?_, ?_, ?_, ?_, ?_, ?_, ?_, ?_, ?_, ?_, ?_, by decide, by decide⟩
  all_goals exact decodeTableWord_of_encode rfl (by decide)

end Sys2Proof

/-! ## Cycle and system (40_cycle_and_system.md): the cycle of an instruction that raises, and SYS -/

namespace Sys2Proof.Machine

/-- No condition leaves the code 0 of a running core in `HALT` (10_state.md R29). -/
theorem Condition.code_ne_zero (c : Condition) : c.code ≠ 0#3 := by
  cases c <;> decide

/-- The cycle of an instruction that raises ends `FATAL`, without tick or beep (R90, 60_exceptions.md R171). -/
theorem cycle_of_raise {s : State} {i : Instr} {c : Condition} (h : s.halt = 0#3) (hd : decodeWord s.fetch = some i)
    (he : exec i s = .next (s.raise c)) : cycle s = .next (untouched (s.raise c) .fatal) := by
  rw [cycle_of_next h hd he, finish_of_raised c.code_ne_zero]

/-- SYS raises `UnsupportedInstruction`, whatever its operand (R95). -/
theorem exec_sys (nnn : BitVec 12) (s : State) : exec (.sys nnn) s = .next (s.raise .unsupportedInstruction) := rfl

/-- Settles O26: SYS raises, which writes the code 1 to HALT alone, and the cycle of an instruction that raises leaves
out the tick. -/
theorem sysRaisesUnsupportedInstruction : Obligations.SysRaisesUnsupportedInstruction := by
  intro nnn s
  have hraise : s.raise .unsupportedInstruction = { s with halt := 1#3 } := rfl
  rw [← hraise]
  exact ⟨exec_sys nnn s, fun hrun hfetch => ⟨_, cycle_of_raise hrun hfetch (exec_sys nnn s), rfl, rfl, rfl⟩⟩

end Sys2Proof.Machine

/-! ## Control transfer (41_control_flow.md): jumps, skips, calls and returns -/

namespace Sys2Proof.Machine

open Sys2Proof.Safety

/-! ### Jumps and skips -/

/-- Settles O27: both are one `jump`; `V0 + nnn` is at most `0xFF + 0xFFF` and so does not wrap. -/
theorem jumpsGoToTheirTargets : Obligations.JumpsGoToTheirTargets := by
  intro nnn s
  have hsum : (widen (s.reg 0) + target nnn).toNat = (s.reg 0).toNat + nnn.toNat := by
    rw [BitVec.toNat_add, widen_toNat, target_toNat]
    omega
  exact ⟨⟨_, rfl, target_toNat nnn, sameBut_jump s _⟩, ⟨_, rfl, hsum, sameBut_jump s _⟩⟩

/-- What every instruction does whose meaning is a skip (R109). -/
theorem exec_of_skipIf {i : Instr} {s : State} {c : Bool} (h : exec i s = .next (s.skipIf c)) :
    ∃ t, exec i s = .next t ∧ t.pc = s.pc + (if c = true then 4#16 else 2#16) ∧ SameBut [.pc] s t := by
  refine ⟨_, h, ?_, sameBut_skipIf s c⟩
  cases c <;> simp

/-- Settles O31: each of the four is a skip on its own condition. -/
theorem skipsAddFourWhenTheirConditionHolds : Obligations.SkipsAddFourWhenTheirConditionHolds := by
  intro x y nn s
  have hSeImm := exec_of_skipIf (i := .seImm x nn) (s := s) rfl
  have hSneImm := exec_of_skipIf (i := .sneImm x nn) (s := s) rfl
  have hSeReg := exec_of_skipIf (i := .seReg x y) (s := s) rfl
  have hSneReg := exec_of_skipIf (i := .sneReg x y) (s := s) rfl
  simp only [beq_iff_eq, bne_iff_ne, ne_eq, ite_not] at hSeImm hSneImm hSeReg hSneReg
  exact ⟨hSeImm, hSneImm, hSeReg, hSneReg⟩

/-! ### Calls and returns -/

/-- CALL with room on the stack pushes and jumps (R102). -/
theorem exec_call_of_push {s t : State} (h : s.push s.pc = some t) (nnn : BitVec 12) :
    exec (.call nnn) s = .next (t.jump (target nnn)) := by
  simp only [exec, execCall, h]

/-- CALL on a full stack raises (R102). -/
theorem exec_call_of_full {s : State} (h : s.sp.val = 16) (nnn : BitVec 12) :
    exec (.call nnn) s = .next (s.raise .stackOverflow) := by
  simp only [exec, execCall, State.push_of_full h]

/-- RET with an entry on the stack pops and jumps 2 past the popped address (R101). -/
theorem exec_ret_of_pop {s t : State} {a : Word} (h : s.pop = some (a, t)) : exec .ret s = .next (t.jump (a + 2#16)) := by
  simp only [exec, execRet, h]

/-- RET on an empty stack raises (R101). -/
theorem exec_ret_of_empty {s : State} (h : s.sp.val = 0) : exec .ret s = .next (s.raise .stackUnderflow) := by
  simp only [exec, execRet, State.pop_of_empty h]

/-- Settles O28: a push, which writes the cell and the count, then a jump, which writes `pc`; or the raise. -/
theorem callPushesItsOwnAddress : Obligations.CallPushesItsOwnAddress := by
  intro nnn s
  refine ⟨fun hroom => ?_, exec_call_of_full (nnn := nnn)⟩
  obtain ⟨t, hpush, hsp, hcells, -⟩ := State.push_of_lt hroom s.pc
  have hframe : SameBut [.pc, .sp, .stack] s (t.jump (target nnn)) :=
    ((sameBut_push hpush).mono (by simp)).trans ((sameBut_jump t _).mono (by simp))
  exact ⟨_, exec_call_of_push hpush nnn, hcells, hsp, target_toNat nnn, hframe⟩

/-- Settles O29: a pop, which writes the count alone, then a jump, which writes `pc`; or the raise. -/
theorem returnResumesAfterTheCall : Obligations.ReturnResumesAfterTheCall := by
  intro s
  refine ⟨fun k hk => ?_, exec_ret_of_empty⟩
  obtain ⟨t, hpop, hsp, -⟩ := State.pop_of_pos (s := s) (by omega)
  have hnewest : (⟨s.sp.val - 1, by omega⟩ : Fin 16) = k := Fin.ext (by simp only [hk, Nat.add_sub_cancel])
  rw [hnewest] at hpop
  have hframe : SameBut [.pc, .sp] s (t.jump (s.stackCell k + 2#16)) :=
    ((sameBut_pop hpop).mono (by simp)).trans ((sameBut_jump t _).mono (by simp))
  have hcount : t.sp.val = k.val := by omega
  exact ⟨_, exec_ret_of_pop hpop, hcount, BitVec.toNat_add _ _, hframe⟩

end Sys2Proof.Machine

/-! ### Nested calls -/

namespace Sys2Proof.Safety

open Sys2Proof.Machine

/-- A part that is the same need not be named by the frame. -/
theorem SameBut.of_cons {p : Part} {ps : List Part} {s t : State} (h : SameBut (p :: ps) s t) (hp : p.Same s t) :
    SameBut ps s t := by
  intro q hq
  by_cases hqp : q = p
  · exact hqp ▸ hp
  · exact h q (by simp [hqp, hq])

/-- From `s` to `t` the live stack entries and everything but `pc` and the dead stack cells are as they were: what a
routine must leave to its caller. -/
def KeptForCaller (s t : State) : Prop :=
  (∀ k : Fin 16, k.val < s.sp.val → t.stackCell k = s.stackCell k) ∧ SameBut [.pc, .stack] s t

/-- Running a list is running its first instruction, then the rest. -/
theorem execAll_cons {i : Instr} {s t : State} (h : exec i s = .next t) (is : List Instr) :
    execAll (i :: is) s = execAll is t := by
  simp only [execAll, h]

/-- A list run to its end may be followed by another. -/
theorem execAll_append {is : List Instr} {s t : State} (h : execAll is s = some t) (js : List Instr) :
    execAll (is ++ js) s = execAll js t := by
  induction is generalizing s with
  | nil => rw [← Option.some.inj h, List.nil_append]
  | cons i is ih =>
    cases he : exec i s with
    | next u => rw [List.cons_append, execAll_cons he, ih (execAll_cons he is ▸ h)]
    | fault f => simp [execAll, he] at h
    | refused r => simp [execAll, he] at h

/-- A call, a routine that keeps what its caller needs, and a return: execution resumes after the call, and this keeps
in turn what the caller's own caller needs. -/
theorem execAll_call_ret {body : List Instr} {s : State} (hroom : s.sp.val < 16) (nnn : BitVec 12)
    (hbody : ∀ u : State, u.sp.val = s.sp.val + 1 → ∃ v, execAll body u = some v ∧ KeptForCaller u v) :
    ∃ t, execAll (.call nnn :: (body ++ [.ret])) s = some t ∧ t.pc = s.pc + 2#16 ∧ KeptForCaller s t := by
  obtain ⟨u, hcall, hpush, hspu, -, hframeCall⟩ := (callPushesItsOwnAddress nnn s).1 hroom
  obtain ⟨v, hrun, hlive, hframeBody⟩ := hbody u hspu
  have hspv : v.sp.val = s.sp.val + 1 := (congrArg Fin.val (hframeBody .sp (by simp))).trans hspu
  obtain ⟨t, hret, hspt, hpct, hframeRet⟩ := (returnResumesAfterTheCall v).1 ⟨s.sp.val, hroom⟩ hspv
  have hpushed : v.stackCell ⟨s.sp.val, hroom⟩ = s.pc := by
    rw [hlive _ (by simp [hspu]), hpush, if_pos rfl]
  have hpc : t.pc = s.pc + 2#16 := BitVec.eq_of_toNat_eq (by rw [hpct, hpushed, BitVec.toNat_add]; rfl)
  have hframe : SameBut [.sp, .pc, .stack] s t :=
    ((hframeCall.mono (by simp)).trans (hframeBody.mono (by simp))).trans (hframeRet.mono (by simp))
  refine ⟨t, ?_, hpc, fun k hk => ?_, hframe.of_cons (Fin.ext hspt)⟩
  · rw [execAll_cons hcall, execAll_append hrun, execAll_cons hret, execAll]
  · calc t.stackCell k
      _ = v.stackCell k := hframeRet .stack (by simp) k
      _ = u.stackCell k := hlive k (by omega)
      _ = s.stackCell k := by rw [hpush, if_neg (by omega)]

/-- The outermost call and the last return enclose the rest. -/
theorem calls_rets_cons (n : BitVec 12) (ns : List (BitVec 12)) :
    (n :: ns).map Instr.call ++ List.replicate (n :: ns).length Instr.ret =
      .call n :: ((ns.map Instr.call ++ List.replicate ns.length Instr.ret) ++ [.ret]) := by
  simp [List.replicate_succ']

/-- Calls and as many returns keep what the caller needs: by induction on the calls, from the outermost inwards. -/
theorem execAll_calls_rets (ns : List (BitVec 12)) (s : State) (hroom : s.sp.val + ns.length ≤ 16) :
    ∃ t, execAll (ns.map Instr.call ++ List.replicate ns.length Instr.ret) s = some t ∧ KeptForCaller s t := by
  induction ns generalizing s with
  | nil => exact ⟨s, rfl, fun _ _ => rfl, SameBut.refl _ s⟩
  | cons n ns ih =>
    rw [List.length_cons] at hroom
    obtain ⟨t, hrun, -, hkept⟩ := execAll_call_ret (s := s) (by omega) n fun u hu => ih u (by omega)
    exact ⟨t, calls_rets_cons n ns ▸ hrun, hkept⟩

/-- Settles O30: the first call and the last return enclose the others, which keep what their caller needs. -/
theorem nestedCallsReturnInOrder : Obligations.NestedCallsReturnInOrder := by
  intro ns s hne hroom
  cases ns with
  | nil => exact absurd rfl hne
  | cons n ns =>
    rw [List.length_cons] at hroom
    rw [calls_rets_cons]
    exact execAll_call_ret (by omega) n fun u hu => execAll_calls_rets ns u (by omega)

end Sys2Proof.Safety

/-! ## ALU (42_alu.md): every instruction answers, and the instructions that write one register -/

namespace Sys2Proof.Machine

open Sys2Proof.Safety

/-! ### Totality -/

/-- CALL answers with room on the stack and on a full one. -/
theorem exec_call_answers (nnn : BitVec 12) (s : State) : ∃ t, exec (.call nnn) s = .next t := by
  by_cases hroom : s.sp.val < 16
  · obtain ⟨t, hpush, -⟩ := State.push_of_lt hroom s.pc
    exact ⟨_, exec_call_of_push hpush nnn⟩
  · exact ⟨_, exec_call_of_full (by omega) nnn⟩

/-- RET answers with an entry on the stack and on an empty one. -/
theorem exec_ret_answers (s : State) : ∃ t, exec .ret s = .next t := by
  by_cases hpos : 0 < s.sp.val
  · obtain ⟨t, hpop, -⟩ := State.pop_of_pos hpos
    exact ⟨_, exec_ret_of_pop hpop⟩
  · exact ⟨_, exec_ret_of_empty (by omega)⟩

/-- LD Vx,K with a key pressed takes the highest one (45_keypad_timers.md R163). -/
theorem exec_ldVxK_of_pressed {s : State} {k : Fin 16} (h : highestKey s.keys = some k) (x : RegIndex) :
    exec (.ldVxK x) s = .next (s.setReg x (BitVec.ofNat 8 k.val)).advance := by
  simp only [exec, execLdVxK, h]

/-- LD Vx,K with no key pressed waits (R163). -/
theorem exec_ldVxK_of_none {s : State} (h : highestKey s.keys = none) (x : RegIndex) : exec (.ldVxK x) s = .next s := by
  simp only [exec, execLdVxK, h]

/-- LD Vx,K answers whether it takes a key or waits. -/
theorem exec_ldVxK_answers (x : RegIndex) (s : State) : ∃ t, exec (.ldVxK x) s = .next t := by
  cases hkey : highestKey s.keys with
  | some k => exact ⟨_, exec_ldVxK_of_pressed hkey x⟩
  | none => exact ⟨_, exec_ldVxK_of_none hkey x⟩

/-- Every instruction answers: three of them look at the state first, the meaning of each other one is a next state. -/
theorem exec_answers (i : Instr) (s : State) : ∃ t, exec i s = .next t := by
  cases i with
  | call nnn => exact exec_call_answers nnn s
  | ret => exact exec_ret_answers s
  | ldVxK x => exact exec_ldVxK_answers x s
  | _ => exact ⟨_, rfl⟩

/-- Every cycle answers: of a halted core, at an unknown opcode, and with an instruction (R90). -/
theorem cycle_answers (s : State) : ∃ r, cycle s = .next r := by
  by_cases hrun : s.halt = 0#3
  · cases hd : decodeWord s.fetch with
    | none => exact ⟨_, cycle_of_unknown hrun hd⟩
    | some i =>
      obtain ⟨t, he⟩ := exec_answers i s
      exact ⟨_, cycle_of_next hrun hd he⟩
  · exact ⟨_, cycle_of_halted hrun⟩

/-- Settles O20: every instruction answers, so every cycle does, and a step is a cycle. -/
theorem execAlwaysAnswersANextState : Obligations.ExecAlwaysAnswersANextState := by
  refine ⟨exec_answers, fun s => ?_⟩
  obtain ⟨r, hcycle⟩ := cycle_answers s
  exact ⟨_, step_of_cycle hcycle⟩

/-! ### Loads, ADD Vx,nn and the logical operations -/

/-- Settles O33: both write one register and advance. -/
theorem loadsWriteOneRegister : Obligations.LoadsWriteOneRegister := by
  intro x y nn s
  exact ⟨⟨_, rfl, wroteReg_advance s x nn⟩, ⟨_, rfl, wroteReg_advance s x (s.reg y)⟩⟩

/-- Settles O34: ADD Vx,nn writes `addResult`, the sum modulo 256, to one register and advances. -/
theorem addImmediateWrapsWithoutFlag : Obligations.AddImmediateWrapsWithoutFlag := by
  intro x nn s
  exact ⟨_, _, rfl, addResult_toNat (s.reg x) nn, wroteReg_advance s x _⟩

/-- Settles O35: each writes the operation on the two bytes, which acts on each bit, to one register and advances. -/
theorem logicalOperationsActOnEachBit : Obligations.LogicalOperationsActOnEachBit := by
  intro x y s
  exact ⟨⟨_, _, rfl, wroteReg_advance s x _, fun _ _ => BitVec.getLsbD_or⟩,
    ⟨_, _, rfl, wroteReg_advance s x _, fun _ _ => BitVec.getLsbD_and⟩,
    ⟨_, _, rfl, wroteReg_advance s x _, fun _ _ => BitVec.getLsbD_xor⟩⟩

end Sys2Proof.Machine

/-! ## Index register and memory (43_index_memory.md): setting `I`, stores and loads at `I` -/

namespace Sys2Proof.Safety

open Sys2Proof.Machine

/-- Setting `I` adds `I` to what has changed. -/
theorem SameBut.setI {ps : List Part} {s t : State} (h : SameBut ps s t) (a : Word) : SameBut (ps ++ [.i]) s (t.setI a) :=
  (h.mono (by simp +contextual)).trans ((sameBut_setI t a).mono (by simp))

/-- Advancing adds `pc` to what has changed. -/
theorem SameBut.advance {ps : List Part} {s t : State} (h : SameBut ps s t) : SameBut (ps ++ [.pc]) s t.advance :=
  (h.mono (by simp +contextual)).trans ((sameBut_advance t).mono (by simp))

end Sys2Proof.Safety

namespace Sys2Proof.Machine

open Sys2Proof.Safety

/-! ### Physical addresses of a block -/

/-- The physical address `k` bytes after `a`: a wrap at 65536 does not show in the low 12 bits (20_memory.md R52, R57). -/
theorem xlate_add_ofNat (a : Word) (k : Nat) : xlate (a + BitVec.ofNat 16 k) = (a.toNat + k) % 4096 := by
  rw [xlate_eq_mod, BitVec.toNat_add, BitVec.toNat_ofNat]
  omega

/-- The byte `k` bytes after `a`, by its physical address. -/
theorem State.memRead_add_ofNat (s : State) (a : Word) (k : Nat) :
    s.memRead (a + BitVec.ofNat 16 k) = Memory.read s.mem ((a.toNat + k) % 4096) := by
  rw [State.memRead, xlate_add_ofNat]

/-- A byte at none of the addresses of a block of stores, computed as numbers, reads as before. -/
theorem State.memRead_storeBytes_of_ne {s : State} (h : Memory.wf s.mem = true) (a : Word) (bs : List Byte) (c : Word)
    (hc : ∀ k < bs.length, c.toNat % 4096 ≠ (a.toNat + k) % 4096) : (s.storeBytes a bs).memRead c = s.memRead c := by
  refine State.memRead_storeBytes_outside h a bs c fun k hk => ?_
  rw [xlate_eq_mod, xlate_add_ofNat]
  exact hc k hk

/-- `I` after a block, as a number (43_index_memory.md R144, R145). -/
theorem indexAfterBlock_toNat (a : Word) (x : RegIndex) :
    (indexAfterBlock a x).toNat = (a.toNat + x.val + 1) % 65536 := by
  rw [indexAfterBlock, BitVec.toNat_add, BitVec.toNat_ofNat]
  omega

/-! ### Setting `I` -/

/-- Settles O42: each sets `I` and advances; ADD I is a sum of words, LD F an address of at most `0x54B`. -/
theorem indexInstructionsSetI : Obligations.IndexInstructionsSetI := by
  intro nnn x s
  have hframe (a : Word) : SameBut [.i, .pc] s (s.setI a).advance := ((SameBut.refl [] s).setI a).advance
  have hadd : (s.i + widen (s.reg x)).toNat = (s.i.toNat + (s.reg x).toNat) % 65536 := by
    rw [BitVec.toNat_add, widen_toNat]
  exact ⟨⟨_, rfl, target_toNat nnn, rfl, hframe _⟩, ⟨_, rfl, hadd, rfl, hframe _⟩,
    ⟨_, rfl, glyphAddress_toNat (s.reg x), rfl, hframe _⟩⟩

/-! ### Decimal digits -/

/-- The three bytes LD B stores, as numbers: none is cut (R143). -/
theorem bcdDigits_toNat (b : Byte) :
    (bcdDigits b).map BitVec.toNat = [b.toNat / 100, b.toNat / 10 % 10, b.toNat % 10] := by
  have hb : b.toNat < 256 := b.isLt
  have hcut {n : Nat} (hn : n < 256) : (BitVec.ofNat 8 n).toNat = n := by rw [BitVec.toNat_ofNat, Nat.mod_eq_of_lt hn]
  simp only [bcdDigits, List.map_cons, List.map_nil]
  rw [hcut (by omega), hcut (by omega), hcut (by omega)]

/-- What the three stores of LD B leave at the address of each digit, as a number. -/
theorem State.memRead_storeBytes_bcdDigits {s : State} (h : Memory.wf s.mem = true) (a : Word) (b : Byte) (k : Nat)
    (hk : k < 3) : ((s.storeBytes a (bcdDigits b)).memRead (a + BitVec.ofNat 16 k)).toNat =
      [b.toNat / 100, b.toNat / 10 % 10, b.toNat % 10][k] := by
  have hlen : (bcdDigits b).length = 3 := rfl
  rw [State.memRead_storeBytes h a (bcdDigits b) (by omega) k (by omega)]
  simp only [← bcdDigits_toNat, List.getElem_map]

/-- Settles O43: the three digits are a block of stores at `I`. -/
theorem bcdStoresThreeDigits : Obligations.BcdStoresThreeDigits := by
  intro x s hwf
  have hdigit := State.memRead_storeBytes_bcdDigits hwf s.i (s.reg x)
  have hundreds := hdigit 0 (by decide)
  rw [BitVec.add_zero] at hundreds
  have hother := State.memRead_storeBytes_of_ne hwf s.i (bcdDigits (s.reg x))
  exact ⟨_, rfl, hundreds, hdigit 1 (by decide), hdigit 2 (by decide), hother, by simp,
    (sameBut_storeBytes s _ _).advance⟩

/-! ### Blocks of registers -/

/-- Settles O44: the registers are a block of `x + 1` stores at the old `I`. -/
theorem blockStoreWritesRegistersAtI : Obligations.BlockStoreWritesRegistersAtI := by
  intro x s hwf
  have hlen : (s.regsUpTo x).length = x.val + 1 := State.length_regsUpTo s x
  have hstored (k : RegIndex) (hk : k.val ≤ x.val) :
      (s.storeBytes s.i (s.regsUpTo x)).memRead (s.i + BitVec.ofNat 16 k.val) = s.reg k := by
    rw [State.memRead_storeBytes hwf s.i _ (by omega) k.val (by omega), State.getElem_regsUpTo]
  have hother (a : Word) (ha : ∀ k, k ≤ x.val → a.toNat % 4096 ≠ (s.i.toNat + k) % 4096) :
      (s.storeBytes s.i (s.regsUpTo x)).memRead a = s.memRead a :=
    State.memRead_storeBytes_of_ne hwf s.i _ a fun k hk => ha k (by omega)
  exact ⟨_, rfl, hstored, hother, indexAfterBlock_toNat s.i x, by simp,
    ((sameBut_storeBytes s _ _).setI _).advance⟩

/-- Settles O45: each register up to `x` takes the byte at its address, by `reg_loadRegs`. -/
theorem blockLoadReadsRegistersAtI : Obligations.BlockLoadReadsRegistersAtI := by
  intro x s
  have hregs (k : RegIndex) : (s.loadRegs s.i x).reg k =
      if k.val ≤ x.val then Memory.read s.mem ((s.i.toNat + k.val) % 4096) else s.reg k := by
    rw [State.reg_loadRegs, State.memRead_add_ofNat]
  exact ⟨_, rfl, hregs, indexAfterBlock_toNat s.i x, by simp,
    ((sameBut_loadRegs s _ _).setI _).advance⟩

/-- Settles O46: by O45 the load reads each register at its address, where by O44 the store left it; both advance `I`
alike. -/
theorem blockStoreThenLoadRestoresRegisters : Obligations.BlockStoreThenLoadRestoresRegisters := by
  intro x s t t' u hwf hstore hi hmem hload
  obtain ⟨t₀, ht, hstored, -, hti, -⟩ := blockStoreWritesRegistersAtI x s hwf
  obtain ⟨u₀, hu, hloaded, hui, -⟩ := blockLoadReadsRegistersAtI x t'
  obtain rfl : t₀ = t := Host.Outcome.next.inj (ht.symm.trans hstore)
  obtain rfl : u₀ = u := Host.Outcome.next.inj (hu.symm.trans hload)
  refine ⟨fun k hk => ?_, BitVec.eq_of_toNat_eq (by rw [hui, hti, hi])⟩
  calc u₀.reg k
    _ = Memory.read t'.mem ((t'.i.toNat + k.val) % 4096) := by rw [hloaded, if_pos hk]
    _ = t'.memRead (s.i + BitVec.ofNat 16 k.val) := by rw [State.memRead_add_ofNat, hi]
    _ = t₀.memRead (s.i + BitVec.ofNat 16 k.val) := hmem _
    _ = s.reg k := hstored k hk

end Sys2Proof.Machine

/-! ## Display (44_display.md): drawing twice, drawing in the safe area, clearing the screen -/

/-! ### What a drawing leaves, by the cells it drew -/

namespace Sys2Proof.Safety

open Sys2Proof.Machine

/-- VF is 0 after a drawing exactly without a collision. -/
theorem DrewCells.flag_eq_zero_iff {drawn : Nat → Prop} {s t : State} (h : DrewCells drawn s t) :
    t.reg 15 = 0#8 ↔ ¬ ∃ c, drawn c ∧ s.cell c = true := by
  obtain ⟨-, hcollision, hclear, -⟩ := h
  refine ⟨fun hzero hex => ?_, hclear⟩
  exact absurd (hzero.symm.trans (hcollision hex)) (by decide)

/-- VF is 1 after a drawing exactly with a collision. -/
theorem DrewCells.flag_eq_one_iff {drawn : Nat → Prop} {s t : State} (h : DrewCells drawn s t) :
    t.reg 15 = 1#8 ↔ ∃ c, drawn c ∧ s.cell c = true := by
  obtain ⟨-, hcollision, hclear, -⟩ := h
  refine ⟨fun hone => by_contra fun hex => ?_, hcollision⟩
  exact absurd (hone.symm.trans (hclear hex)) (by decide)

/-- A second drawing of the same cells gives back the framebuffer (R154 (2)). -/
theorem DrewCells.cell_of_twice {drawn : Nat → Prop} {s t u : State} (h : DrewCells drawn s t) (h' : DrewCells drawn t u)
    {L : Nat} (hL : L < 2048) : u.cell L = s.cell L := by
  obtain ⟨hfirst, -⟩ := h
  obtain ⟨hsecond, -⟩ := h'
  by_cases hd : drawn L
  · rw [(hsecond L hL).1 hd, (hfirst L hL).1 hd, Bool.not_not]
  · rw [(hsecond L hL).2 hd, (hfirst L hL).2 hd]

/-- A drawn cell holds 1 after the drawing exactly if it held 0 before. -/
theorem DrewCells.drawn_and_cell_iff {drawn : Nat → Prop} {s t : State} (h : DrewCells drawn s t)
    (hlt : ∀ c, drawn c → c < 2048) (c : Nat) : drawn c ∧ t.cell c = true ↔ drawn c ∧ s.cell c = false := by
  obtain ⟨hcells, -⟩ := h
  refine and_congr_right fun hd => ?_
  rw [(hcells c (hlt c hd)).1 hd, Bool.not_eq_true']

/-- The parts a drawing leaves as they were. -/
theorem DrewCells.frame {drawn : Nat → Prop} {s t : State} (h : DrewCells drawn s t) :
    SameBut [.v, .fb, .dirty, .pc] s t := by
  obtain ⟨-, -, -, -, -, -, hframe⟩ := h
  exact hframe

/-- A sprite is read from `I` and memory alone, and drawing changes neither. -/
theorem DrewCells.setPixel_eq {drawn : Nat → Prop} {s t : State} (h : DrewCells drawn s t) (vx vy : Byte) (n : Nat) :
    SetPixel t vx vy n = SetPixel s vx vy n := by
  have hi : t.i = s.i := h.frame .i (by simp)
  have hmem : ∀ a : Word, t.memRead a = s.memRead a := h.frame .mem (by simp)
  funext L
  simp only [SetPixel, hi, hmem]

/-- Drawn cells lie in the framebuffer. -/
theorem DrawnCell.lt {mode : DrawOob} {s : State} {vx vy : Byte} {n c : Nat} (h : DrawnCell mode s vx vy n c) : c < 2048 := by
  obtain ⟨L, -, ⟨hL, rfl⟩ | ⟨-, -, rfl⟩⟩ := h
  · exact hL
  · exact Nat.mod_lt L (by decide)

end Sys2Proof.Safety

/-! ### Drawing twice -/

namespace Sys2Proof.Machine

open Sys2Proof.Safety

/-- A drawing that does not raise inverts the drawn cells and commits (R151, R152). -/
theorem State.drewCells_drawSprite {s : State} {mode : DrawOob} {vx vy : Byte} {n : Nat} (hn : n ≤ 15)
    (hin : ¬ (mode = .fault ∧ SomePixelOutside s vx vy n)) :
    DrewCells (DrawnCell mode s vx vy n) s (s.drawSprite mode vx vy n) := by
  obtain ⟨hf, hout, -⟩ | ⟨-, c, hdraw, hcells, hflag⟩ := s.drawSprite_cases mode vx vy n hn
  · exact absurd ⟨hf, hout⟩ hin
  · rw [hdraw]
    refine ⟨fun k _ => ⟨fun hk => ?_, fun hk => ?_⟩, fun hex => ?_, fun hex => ?_, fun r hr => ?_, rfl, rfl,
      sameBut_commitCanvas s c⟩
    · rw [State.cell_commitCanvas, Bool.eq_iff_iff, hcells]; simp [hk]
    · rw [State.cell_commitCanvas, Bool.eq_iff_iff, hcells]; simp [hk]
    · simp [hflag.mpr hex, flagByte]
    · simp [Bool.eq_false_iff.mpr (mt hflag.mp hex), flagByte]
    · simp [hr]

/-- A drawing after which the core runs did not raise. -/
theorem State.not_raises_of_drawSprite_halt {s : State} {mode : DrawOob} {vx vy : Byte} {n : Nat} (hn : n ≤ 15)
    (h : (s.drawSprite mode vx vy n).halt = 0#3) : ¬ (mode = .fault ∧ SomePixelOutside s vx vy n) := by
  obtain ⟨-, -, hraise⟩ | ⟨hin, -⟩ := s.drawSprite_cases mode vx vy n hn
  · rw [hraise] at h
    exact absurd h (Condition.code_ne_zero .drawOutOfBounds)
  · exact hin

/-- Settles O50: the first drawing leaves the sprite as it was, so the second draws the same cells, and each now holds the
opposite of what it held. -/
theorem drawingTwiceRestoresTheFramebuffer : Obligations.DrawingTwiceRestoresTheFramebuffer := by
  rintro mode s t u vx vy n - rfl hrun rfl
  have hn : n.val ≤ 15 := by omega
  have hin := State.not_raises_of_drawSprite_halt hn hrun
  have hfirst := State.drewCells_drawSprite hn hin
  generalize s.drawSprite mode vx vy n.val = t at hfirst hrun ⊢
  have hsprite := hfirst.setPixel_eq vx vy n.val
  have hdrawn : DrawnCell mode t vx vy n.val = DrawnCell mode s vx vy n.val := by
    funext c
    simp only [DrawnCell, hsprite]
  have hsecond : DrewCells (DrawnCell mode s vx vy n.val) t (t.drawSprite mode vx vy n.val) := by
    rw [← hdrawn]
    exact State.drewCells_drawSprite hn (by simpa only [SomePixelOutside, hsprite] using hin)
  have hflipped := hfirst.drawn_and_cell_iff fun _ => DrawnCell.lt
  refine ⟨(hsecond.frame .halt (by simp)).trans hrun, fun L => hfirst.cell_of_twice hsecond, ?_, ?_⟩
  · rw [hsecond.flag_eq_one_iff, exists_congr hflipped]
  · rw [hsecond.flag_eq_zero_iff, exists_congr hflipped]
    simp only [not_exists, not_and, Bool.not_eq_false]

/-! ### Drawing inside the framebuffer -/

/-- Pixels inside the framebuffer are plotted at their own cells, whatever `DRAW_OOB` is (R152 case (a)). -/
theorem Canvas.drawPixels_of_lt (mode : DrawOob) (c : Canvas) {Ls : List Nat} (h : ∀ L ∈ Ls, L < 2048) :
    c.drawPixels mode Ls = some (Ls.foldl Canvas.plot c) := by
  induction Ls generalizing c with
  | nil => rfl
  | cons L Ls ih =>
    obtain ⟨hL, hLs⟩ := List.forall_mem_cons.mp h
    simp only [drawPixels, hL, if_true, ih _ hLs, List.foldl_cons]

/-- A sprite whose set pixels are all inside the framebuffer is plotted whole, whatever `DRAW_OOB` is. -/
theorem State.drawSprite_of_inside {s : State} {vx vy : Byte} {n : Nat} (h : ∀ L, SetPixel s vx vy n L → L < 2048)
    (mode : DrawOob) :
    s.drawSprite mode vx vy n = s.commitCanvas ((s.spritePixels vx vy n).foldl Canvas.plot ⟨s.fb, false⟩) := by
  have hpixels : ∀ L ∈ s.spritePixels vx vy n, L < 2048 := fun L hL => h L (State.mem_spritePixels.mp hL)
  simp only [drawSprite, Canvas.drawPixels_of_lt mode _ hpixels]

/-- In the safe area no carry passes from a pixel's column to its row, and no row is below the last (R154 (4)). -/
theorem setPixel_safeArea {s : State} {vx vy : Byte} {n L : Nat} (hx : vx.toNat ≤ 56) (hy : vy.toNat + n ≤ 32)
    (h : SetPixel s vx vy n L) :
    L < 2048 ∧ vx.toNat ≤ L % 64 ∧ vy.toNat ≤ L / 64 ∧ L / 64 < vy.toNat + n := by
  obtain ⟨row, col, hrow, hcol, -, rfl⟩ := h
  omega

/-- Settles O51: no pixel leaves the framebuffer, and only there does `DRAW_OOB` count. -/
theorem drawInTheSafeAreaIgnoresDrawOob : Obligations.DrawInTheSafeAreaIgnoresDrawOob := by
  intro s vx vy n hx hy
  have harea (L : Nat) := setPixel_safeArea (s := s) (L := L) hx hy
  have hdraw := State.drawSprite_of_inside fun L hL => (harea L hL).1
  exact ⟨harea, fun mode mode' => (hdraw mode).trans (hdraw mode').symm⟩

/-! ### Clearing the screen -/

/-- Writing the framebuffer and `DIRTY` leaves the other parts. -/
theorem sameBut_fb_dirty (s : State) (fb : BitVec 2048) (dirty : Bool) :
    SameBut [.fb, .dirty] s { s with fb := fb, dirty := dirty } := by
  intro p hp
  cases p with
  | fb | dirty => simp at hp
  | v | stack | keys | mem => exact fun _ => rfl
  | _ => exact rfl

/-- Settles O47: CLS writes the framebuffer and `DIRTY`, then advances. -/
theorem clearScreenClearsEveryCell : Obligations.ClearScreenClearsEveryCell := by
  intro s
  exact ⟨_, rfl, fun _ _ => BitVec.getLsbD_zero, rfl, rfl, (sameBut_fb_dirty s 0 true).advance⟩

end Sys2Proof.Machine

/-! ## Keypad and timers (45_keypad_timers.md): reading DT, setting DT and ST -/

namespace Sys2Proof.Machine

open Sys2Proof.Safety

/-- Writing the timers leaves the other parts. -/
theorem sameBut_timers (s : State) (dt st : Byte) : SameBut [.dt, .st] s { s with dt := dt, st := st } := by
  intro p hp
  cases p with
  | dt | st => simp at hp
  | v | stack | keys | mem => exact fun _ => rfl
  | fb => exact fun _ _ => rfl
  | _ => exact rfl

/-- Writing `DT` leaves the other parts, `ST` among them. -/
theorem sameBut_dt (s : State) (b : Byte) : SameBut [.dt] s { s with dt := b } :=
  SameBut.of_cons (p := .st) ((sameBut_timers s b s.st).mono (by simp)) rfl

/-- Writing `ST` leaves the other parts, `DT` among them. -/
theorem sameBut_st (s : State) (b : Byte) : SameBut [.st] s { s with st := b } :=
  (sameBut_timers s s.dt b).of_cons rfl

/-- Settles O53: LD Vx,DT writes one register, the other two one timer each, and each of the three advances. -/
theorem timerInstructionsMoveTheTimers : Obligations.TimerInstructionsMoveTheTimers := by
  intro x s
  exact ⟨⟨_, rfl, wroteReg_advance s x s.dt⟩, ⟨_, rfl, rfl, rfl, (sameBut_dt s (s.reg x)).advance⟩,
    ⟨_, rfl, rfl, rfl, (sameBut_st s (s.reg x)).advance⟩⟩

end Sys2Proof.Machine

/-! ## Host operations (60_exceptions.md): reading the framebuffer, clearing DIRTY -/

namespace Sys2Proof.Machine

open Sys2Proof.Safety

/-- The ClearDirty operation leaves every part but `DIRTY`, the framebuffer among them (R186). -/
theorem sameBut_hostClearDirty (s : State) : SameBut [.dirty] s (hostClearDirty s) :=
  (sameBut_fb_dirty s s.fb false).of_cons fun _ _ => rfl

/-- Settles O58: ReadFramebuffer answers the framebuffer and `DIRTY` of the state it leaves; ClearDirty writes `DIRTY` only. -/
theorem framebufferIsReadAndDirtyCleared : Obligations.FramebufferIsReadAndDirtyCleared := by
  intro s
  constructor
  · exact ⟨s.fb, rfl, fun _ _ => rfl⟩
  · exact ⟨hostClearDirty s, rfl, rfl, sameBut_hostClearDirty s⟩

end Sys2Proof.Machine

/-! ## Invariants (10_state.md R29, R35): what an instruction can do, who raises, and what every step keeps -/

namespace Sys2Proof.Machine

open Sys2Proof.Safety

/-! ### The instructions that look at the state first -/

/-- CALL pushes and jumps, or raises on a full stack (41_control_flow.md R102). -/
theorem exec_call_cases {nnn : BitVec 12} {s t : State} (h : exec (.call nnn) s = .next t) :
    (∃ u, s.push s.pc = some u ∧ u = { s with stack := u.stack, sp := u.sp } ∧ t = u.jump (target nnn)) ∨
      (s.sp.val = 16 ∧ t = s.raise .stackOverflow) := by
  by_cases hroom : s.sp.val < 16
  · obtain ⟨u, hpush, -, -, hu⟩ := State.push_of_lt hroom s.pc
    exact .inl ⟨u, hpush, hu, Host.Outcome.next.inj (h.symm.trans (exec_call_of_push hpush nnn))⟩
  · have hfull : s.sp.val = 16 := by omega
    exact .inr ⟨hfull, Host.Outcome.next.inj (h.symm.trans (exec_call_of_full hfull nnn))⟩

/-- RET pops and jumps, or raises on an empty stack (R101). -/
theorem exec_ret_cases {s t : State} (h : exec .ret s = .next t) :
    (∃ a u, s.pop = some (a, u) ∧ u = { s with sp := u.sp } ∧ t = u.jump (a + 2#16)) ∨
      (s.sp.val = 0 ∧ t = s.raise .stackUnderflow) := by
  by_cases hpos : 0 < s.sp.val
  · obtain ⟨u, hpop, -, hu⟩ := State.pop_of_pos hpos
    exact .inl ⟨_, u, hpop, hu, Host.Outcome.next.inj (h.symm.trans (exec_ret_of_pop hpop))⟩
  · have hempty : s.sp.val = 0 := by omega
    exact .inr ⟨hempty, Host.Outcome.next.inj (h.symm.trans (exec_ret_of_empty hempty))⟩

/-- LD Vx,K takes a key, or waits (45_keypad_timers.md R163). -/
theorem exec_ldVxK_cases {x : RegIndex} {s t : State} (h : exec (.ldVxK x) s = .next t) :
    (∃ b, t = (s.setReg x b).advance) ∨ t = s := by
  cases hkey : highestKey s.keys with
  | some k => exact .inl ⟨_, Host.Outcome.next.inj (h.symm.trans (exec_ldVxK_of_pressed hkey x))⟩
  | none => exact .inr (Host.Outcome.next.inj (h.symm.trans (exec_ldVxK_of_none hkey x)))

/-- DRW commits a canvas, or raises under `fault` with a set pixel outside (44_display.md R151, R152). -/
theorem exec_drw_cases {x y : RegIndex} {n : Fin 16} {s t : State} (h : exec (.drw x y n) s = .next t) :
    (∃ c, t = s.commitCanvas c) ∨
      (drawOob = .fault ∧ SomePixelOutside s (s.reg x) (s.reg y) n.val ∧ t = s.raise .drawOutOfBounds) := by
  obtain rfl := Host.Outcome.next.inj h
  obtain ⟨hmode, hout, hraise⟩ | ⟨-, c, hdraw, -⟩ := s.drawSprite_cases drawOob (s.reg x) (s.reg y) n.val (by omega)
  · exact .inr ⟨hmode, hout, hraise⟩
  · exact .inl ⟨c, hdraw⟩

/-! ### HALT -/

/-- The instruction `i` raises the condition in state `s` (60_exceptions.md R170). -/
def Raises (i : Instr) (s : State) : Condition → Prop
  | .unsupportedInstruction => ∃ nnn, i = .sys nnn
  | .stackOverflow => s.sp.val = 16 ∧ ∃ nnn, i = .call nnn
  | .stackUnderflow => s.sp.val = 0 ∧ i = .ret
  | .drawOutOfBounds =>
    drawOob = .fault ∧ ∃ x y n, i = .drw x y n ∧ SomePixelOutside s (s.reg x) (s.reg y) n.val

/-- An instruction leaves HALT alone, or raises and changes nothing else (R171). -/
theorem exec_halt_or_raises {i : Instr} {s t : State} (h : exec i s = .next t) :
    t.halt = s.halt ∨ ∃ c, Raises i s c ∧ t = s.raise c := by
  cases i with
  | sys nnn => exact .inr ⟨.unsupportedInstruction, ⟨nnn, rfl⟩, (Host.Outcome.next.inj h).symm⟩
  | call nnn =>
    obtain ⟨u, -, hu, rfl⟩ | ⟨hfull, ht⟩ := exec_call_cases h
    · rw [hu]; exact .inl rfl
    · exact .inr ⟨.stackOverflow, ⟨hfull, nnn, rfl⟩, ht⟩
  | ret =>
    obtain ⟨a, u, -, hu, rfl⟩ | ⟨hempty, ht⟩ := exec_ret_cases h
    · rw [hu]; exact .inl rfl
    · exact .inr ⟨.stackUnderflow, ⟨hempty, rfl⟩, ht⟩
  | drw x y n =>
    obtain ⟨c, rfl⟩ | ⟨hmode, hout, ht⟩ := exec_drw_cases h
    · exact .inl rfl
    · exact .inr ⟨.drawOutOfBounds, ⟨hmode, x, y, n, rfl, hout⟩, ht⟩
  | ldVxK x => obtain ⟨b, rfl⟩ | rfl := exec_ldVxK_cases h <;> exact .inl rfl
  | ldB x | ldMemV x | ldVMem x => obtain rfl := Host.Outcome.next.inj h; exact .inl (by simp)
  | _ => obtain rfl := Host.Outcome.next.inj h; exact .inl rfl

/-- The codes 5 to 7 are no condition's (10_state.md R29). -/
theorem Condition.code_toNat_le (c : Condition) : c.code.toNat ≤ 4 := by
  cases c <;> decide

/-- Settles O21: an instruction that leaves HALT other than it found it has raised one of the four conditions. -/
theorem onlyTheFourConditionsAreRaised : Obligations.OnlyTheFourConditionsAreRaised := by
  intro i s t hrun h hhalt
  obtain hsame | ⟨c, hraises, rfl⟩ := exec_halt_or_raises h
  · exact absurd (hsame.trans hrun) hhalt
  · refine ⟨rfl, ?_⟩
    cases c with
    | unsupportedInstruction => exact .inl ⟨rfl, hraises⟩
    | stackOverflow => exact .inr (.inl ⟨rfl, hraises⟩)
    | stackUnderflow => exact .inr (.inr (.inl ⟨rfl, hraises⟩))
    | drawOutOfBounds => exact .inr (.inr (.inr ⟨rfl, hraises⟩))

/-! ### The invariant -/

/-- An instruction keeps memory in canonical form: LD B and LD [I],Vx store bytes, the others leave memory alone. -/
theorem wf_mem_of_exec {i : Instr} {s t : State} (hwf : Memory.wf s.mem = true) (h : exec i s = .next t) :
    Memory.wf t.mem = true := by
  cases i with
  | ldB x | ldMemV x => obtain rfl := Host.Outcome.next.inj h; exact State.wf_storeBytes hwf _ _
  | call nnn =>
    obtain ⟨u, -, hu, rfl⟩ | ⟨-, rfl⟩ := exec_call_cases h
    · rw [hu]; exact hwf
    · exact hwf
  | ret =>
    obtain ⟨a, u, -, hu, rfl⟩ | ⟨-, rfl⟩ := exec_ret_cases h
    · rw [hu]; exact hwf
    · exact hwf
  | drw x y n => obtain ⟨c, rfl⟩ | ⟨-, -, rfl⟩ := exec_drw_cases h <;> exact hwf
  | ldVxK x => obtain ⟨b, rfl⟩ | rfl := exec_ldVxK_cases h <;> exact hwf
  | _ => obtain rfl := Host.Outcome.next.inj h; exact hwf

/-- An instruction keeps the invariant. -/
theorem inv_of_exec {i : Instr} {s t : State} (hinv : Inv s) (h : exec i s = .next t) : Inv t := by
  obtain ⟨hwf, hcode⟩ := hinv
  refine ⟨wf_mem_of_exec hwf h, ?_⟩
  obtain hsame | ⟨c, -, rfl⟩ := exec_halt_or_raises h
  · rwa [hsame]
  · exact c.code_toNat_le

/-- A cycle keeps the invariant: the tick at its end writes neither memory nor HALT. -/
theorem inv_of_cycle {s : State} {r : CycleResult} (hinv : Inv s) (h : cycle s = .next r) : Inv r.state := by
  obtain ⟨-, rfl⟩ | ⟨-, -, rfl⟩ | ⟨i, t, -, -, hexec, rfl⟩ := cycle_cases h
  · exact hinv
  · exact hinv
  · have ht : Inv t := inv_of_exec hinv hexec
    by_cases hrun : t.halt = 0#3
    · rw [finish_of_running hrun]; exact ht
    · rw [finish_of_raised hrun]; exact ht

/-- Settles O9: a step is a cycle, and a cycle keeps the invariant. -/
theorem stepKeepsTheInvariant : Obligations.StepKeepsTheInvariant := by
  intro s t hinv hstep
  obtain ⟨r, hcycle, rfl⟩ := cycle_of_step hstep
  exact inv_of_cycle hinv hcycle

/-- Settles O8: nothing is listed in memory, and HALT is 0. -/
theorem resetSatisfiesTheInvariant : Obligations.ResetSatisfiesTheInvariant :=
  fun _ => ⟨rfl, Nat.zero_le 4⟩

/-- Every host operation keeps the invariant: Reset makes it, Load stores bytes, Cycle is `inv_of_cycle`, and the others
write neither memory nor HALT (60_exceptions.md R180). -/
theorem inv_of_perform {op : HostOp} {s t : State} {reply : HostReply} (hinv : Inv s)
    (h : perform op s = .next (t, reply)) : Inv t := by
  cases op with
  | reset =>
    obtain ⟨rfl, -⟩ := Prod.mk.inj (Host.Outcome.next.inj h)
    exact resetSatisfiesTheInvariant s.draws
  | load img =>
    obtain ⟨rfl, -⟩ := Prod.mk.inj (Host.Outcome.next.inj h)
    obtain ⟨hwf, hcode⟩ := hinv
    by_cases hlen : img.length ≤ progMax
    · rw [hostLoad, if_pos hlen]
      exact ⟨State.wf_storeBytes hwf _ _, by rwa [State.storeBytes_halt]⟩
    · rw [hostLoad, if_neg hlen]
      exact ⟨hwf, hcode⟩
  | cycle =>
    obtain ⟨r, hcycle⟩ := cycle_answers s
    simp only [perform, hcycle, Host.Outcome.next.injEq, Prod.mk.injEq] at h
    obtain ⟨rfl, -⟩ := h
    exact inv_of_cycle hinv hcycle
  | setKey index pressed =>
    obtain ⟨rfl, -⟩ := Prod.mk.inj (Host.Outcome.next.inj h)
    by_cases hindex : index < 16
    · rw [hostSetKey, if_pos hindex]; exact hinv
    · rw [hostSetKey, if_neg hindex]; exact hinv
  | readStatus | readFramebuffer | clearDirty =>
    obtain ⟨rfl, -⟩ := Prod.mk.inj (Host.Outcome.next.inj h)
    exact hinv

/-- Settles O10: the invariant holds after Reset and every operation keeps it, so it holds along every session. -/
theorem everyReachableStateSatisfiesTheInvariant : Obligations.EveryReachableStateSatisfiesTheInvariant := by
  refine ⟨fun _ _ _ _ => inv_of_perform, fun s hreach => ?_⟩
  induction hreach with
  | reset d => exact resetSatisfiesTheInvariant d
  | perform _ hop ih => exact inv_of_perform ih hop

end Sys2Proof.Machine

/-! ## The access table (10_state.md R35): what each instruction may write -/

namespace Sys2Proof.Machine

open Sys2Proof.Safety

/-- The parts an instruction may write, row by row of the access table. -/
def writes : Instr → List Part
  | .cls => [.fb, .dirty, .pc]
  | .ret => [.sp, .pc, .halt]
  | .sys _ => [.halt]
  | .call _ => [.stack, .sp, .pc, .halt]
  | .jp _ | .jpV0 _ | .seImm _ _ | .sneImm _ _ | .seReg _ _ | .sneReg _ _ | .skp _ | .sknp _ => [.pc]
  | .ldImm _ _ | .addImm _ _ | .ldReg _ _ | .or _ _ | .and _ _ | .xor _ _ | .addReg _ _ | .sub _ _ | .shr _ _
  | .subn _ _ | .shl _ _ | .ldVxDt _ | .ldVxK _ => [.v, .pc]
  | .rnd _ _ => [.v, .pc, .draws]
  | .drw _ _ _ => [.v, .fb, .dirty, .pc, .halt]
  | .ldDtVx _ => [.dt, .pc]
  | .ldStVx _ => [.st, .pc]
  | .ldI _ | .addI _ | .ldF _ => [.i, .pc]
  | .ldB _ => [.mem, .pc]
  | .ldMemV _ => [.mem, .i, .pc]
  | .ldVMem _ => [.v, .i, .pc]

/-- The mnemonics that may write a part other than the registers and `pc`, column by column of the same table. -/
def writers : Part → List String
  | .v | .pc | .keys => []
  | .i => ["LD_I", "ADD_I", "LD_F", "LD_MEM_V", "LD_V_MEM"]
  | .sp => ["RET", "CALL"]
  | .stack => ["CALL"]
  | .dt => ["LD_DT_VX"]
  | .st => ["LD_ST_VX"]
  | .fb | .dirty => ["CLS", "DRW"]
  | .halt => ["SYS", "CALL", "RET", "DRW"]
  | .mem => ["LD_B", "LD_MEM_V"]
  | .draws => ["RND"]

/-- The rows and the columns of the table agree. -/
theorem mnemonic_mem_writers (i : Instr) : ∀ p ∈ writes i, p = .v ∨ p = .pc ∨ i.mnemonic ∈ writers p := by
  cases i <;> simp [writes, writers, Instr.mnemonic]

/-- The frame of every instruction: what it may not write it leaves as it was. -/
theorem sameBut_writes {i : Instr} {s t : State} (h : exec i s = .next t) : SameBut (writes i) s t := by
  cases i with
  | cls => obtain rfl := Host.Outcome.next.inj h; exact (sameBut_fb_dirty s 0 true).advance
  | ret =>
    obtain ⟨a, u, hpop, -, rfl⟩ | ⟨-, rfl⟩ := exec_ret_cases h
    · exact ((sameBut_pop hpop).mono (by simp [writes])).trans ((sameBut_jump u _).mono (by simp [writes]))
    · exact (sameBut_raise s _).mono (by simp [writes])
  | sys nnn => obtain rfl := Host.Outcome.next.inj h; exact sameBut_raise s _
  | call nnn =>
    obtain ⟨u, hpush, -, rfl⟩ | ⟨-, rfl⟩ := exec_call_cases h
    · exact ((sameBut_push hpush).mono (by simp [writes])).trans ((sameBut_jump u _).mono (by simp [writes]))
    · exact (sameBut_raise s _).mono (by simp [writes])
  | jp nnn | jpV0 nnn => obtain rfl := Host.Outcome.next.inj h; exact sameBut_jump s _
  | seImm x nn | sneImm x nn | seReg x y | sneReg x y | skp x | sknp x =>
    obtain rfl := Host.Outcome.next.inj h; exact sameBut_skipIf s _
  | ldImm x nn | addImm x nn | ldReg x y | or x y | and x y | xor x y | ldVxDt x =>
    obtain rfl := Host.Outcome.next.inj h; exact (sameBut_setReg s x _).advance
  | addReg x y | sub x y | shr x y | subn x y | shl x y =>
    obtain rfl := Host.Outcome.next.inj h; exact (sameBut_setFlagged s x _ _).advance
  | rnd x nn =>
    obtain rfl := Host.Outcome.next.inj h
    exact ((sameBut_setReg s x _).advance.mono (by simp [writes])).trans ((sameBut_useRnd _).mono (by simp [writes]))
  | drw x y n =>
    obtain ⟨c, rfl⟩ | ⟨-, -, rfl⟩ := exec_drw_cases h
    · exact (sameBut_commitCanvas s c).mono (by simp [writes])
    · exact (sameBut_raise s _).mono (by simp [writes])
  | ldVxK x =>
    obtain ⟨b, rfl⟩ | rfl := exec_ldVxK_cases h
    · exact (sameBut_setReg s x b).advance
    · exact SameBut.refl _ t
  | ldDtVx x => obtain rfl := Host.Outcome.next.inj h; exact (sameBut_dt s _).advance
  | ldStVx x => obtain rfl := Host.Outcome.next.inj h; exact (sameBut_st s _).advance
  | ldI nnn | addI x | ldF x => obtain rfl := Host.Outcome.next.inj h; exact (sameBut_setI s _).advance
  | ldB x => obtain rfl := Host.Outcome.next.inj h; exact (sameBut_storeBytes s _ _).advance
  | ldMemV x => obtain rfl := Host.Outcome.next.inj h; exact ((sameBut_storeBytes s _ _).setI _).advance
  | ldVMem x => obtain rfl := Host.Outcome.next.inj h; exact ((sameBut_loadRegs s _ _).setI _).advance

/-- A register the table does not give to an instruction is left as it was. -/
theorem reg_of_exec {i : Instr} {s t : State} (h : exec i s = .next t) {r : RegIndex} (hr : ¬ mayWriteReg i r) :
    t.reg r = s.reg r := by
  cases i with
  | ldImm x nn | addImm x nn | ldReg x y | or x y | and x y | xor x y | rnd x nn | ldVxDt x =>
    obtain rfl := Host.Outcome.next.inj h
    exact (State.reg_setReg s x _ r).trans (if_neg hr)
  | addReg x y | sub x y | shr x y | subn x y | shl x y =>
    obtain rfl := Host.Outcome.next.inj h
    obtain ⟨hx, hvf⟩ := not_or.mp hr
    simp [hx, hvf]
  | ldVMem x =>
    obtain rfl := Host.Outcome.next.inj h
    exact (State.reg_loadRegs s s.i x r).trans (if_neg hr)
  | drw x y n =>
    obtain ⟨c, rfl⟩ | ⟨-, -, rfl⟩ := exec_drw_cases h
    · exact (State.reg_commitCanvas s c r).trans (if_neg hr)
    · rfl
  | ldVxK x =>
    obtain ⟨b, rfl⟩ | rfl := exec_ldVxK_cases h
    · exact (State.reg_setReg s x b r).trans (if_neg hr)
    · rfl
  | _ => exact sameBut_writes h .v (by simp [writes]) r

/-- Settles O22: a part whose column does not name the instruction is outside its frame. -/
theorem onlyTheListedInstructionsWrite : Obligations.OnlyTheListedInstructionsWrite := by
  intro i s t h
  have same (p : Part) (hv : p ≠ .v) (hpc : p ≠ .pc) (hm : i.mnemonic ∉ writers p) : p.Same s t :=
    sameBut_writes h p fun hp => by
      obtain hp | hp | hp := mnemonic_mem_writers i p hp
      · exact hv hp
      · exact hpc hp
      · exact hm hp
  refine ⟨fun _ => reg_of_exec h, same .i nofun nofun, same .sp nofun nofun, fun hm => ?_, fun hm => ?_, fun hm => ?_,
    same .keys nofun nofun List.not_mem_nil, fun hm => ⟨same .fb nofun nofun hm, same .dirty nofun nofun hm⟩,
    same .mem nofun nofun, same .halt nofun nofun, fun hm => ?_⟩
  · exact same .stack nofun nofun (mt List.mem_singleton.mp hm)
  · exact same .dt nofun nofun (mt List.mem_singleton.mp hm)
  · exact same .st nofun nofun (mt List.mem_singleton.mp hm)
  · exact same .draws nofun nofun (mt List.mem_singleton.mp hm)

end Sys2Proof.Machine

/-! ## Noninterference (10_state.md R25 to R28, R35): who reads the keypad, the framebuffer, ST and DIRTY -/

namespace Sys2Proof.Machine

open Sys2Proof.Safety

/-! ### States that differ in the parts few instructions read -/

/-- The state with its keypad, framebuffer, ST and DIRTY replaced, each by a function of what it held. -/
def State.mapIo (s : State) (keys : BitVec 16 → BitVec 16) (fb : BitVec 2048 → BitVec 2048) (st : Byte → Byte)
    (dirty : Bool → Bool) : State :=
  { s with keys := keys s.keys, fb := fb s.fb, st := st s.st, dirty := dirty s.dirty }

section

variable (s : State) (keys : BitVec 16 → BitVec 16) (fb : BitVec 2048 → BitVec 2048) (st : Byte → Byte)
  (dirty : Bool → Bool)

/-- A push reads none of the four. -/
theorem State.push_mapIo (a : Word) :
    (s.mapIo keys fb st dirty).push a = (s.push a).map (·.mapIo keys fb st dirty) := by
  by_cases hroom : s.sp.val < 16 <;> simp [State.push, State.mapIo, hroom]

/-- A pop reads none of the four. -/
theorem State.pop_mapIo :
    (s.mapIo keys fb st dirty).pop = s.pop.map fun p => (p.1, p.2.mapIo keys fb st dirty) := by
  by_cases hpos : 0 < s.sp.val <;> simp [State.pop, State.mapIo, hpos]

/-- A block of stores reads none of the four. -/
theorem State.storeBytes_mapIo (a : Word) (bs : List Byte) :
    (s.mapIo keys fb st dirty).storeBytes a bs = (s.storeBytes a bs).mapIo keys fb st dirty := by
  induction bs generalizing s a with
  | nil => rfl
  | cons b bs ih => exact ih (s.memWrite a b) (a + 1#16)

end

/-- An instruction that neither reads nor writes one of the four does the same whatever they hold, and leaves them. -/
theorem exec_mapIo {i : Instr} (hi : i.mnemonic ∉ ["CLS", "DRW", "LD_ST_VX", "SKP", "SKNP", "LD_VX_K"]) {s t : State}
    (h : exec i s = .next t) (keys : BitVec 16 → BitVec 16) (fb : BitVec 2048 → BitVec 2048) (st : Byte → Byte)
    (dirty : Bool → Bool) : exec i (s.mapIo keys fb st dirty) = .next (t.mapIo keys fb st dirty) := by
  cases i with
  | cls | drw x y n | ldStVx x | skp x | sknp x | ldVxK x => simp [Instr.mnemonic] at hi
  | call nnn =>
    obtain ⟨u, hpush, -, rfl⟩ | ⟨hfull, rfl⟩ := exec_call_cases h
    · exact exec_call_of_push ((s.push_mapIo keys fb st dirty s.pc).trans (congrArg _ hpush)) nnn
    · exact exec_call_of_full (s := s.mapIo keys fb st dirty) hfull nnn
  | ret =>
    obtain ⟨a, u, hpop, -, rfl⟩ | ⟨hempty, rfl⟩ := exec_ret_cases h
    · exact exec_ret_of_pop ((s.pop_mapIo keys fb st dirty).trans (congrArg _ hpop))
    · exact exec_ret_of_empty (s := s.mapIo keys fb st dirty) hempty
  | ldMemV x =>
    obtain rfl := Host.Outcome.next.inj h
    have hstore := s.storeBytes_mapIo keys fb st dirty s.i (s.regsUpTo x)
    exact congrArg (fun u : State => Host.Outcome.next (u.setI (indexAfterBlock s.i x)).advance) hstore
  | _ => obtain rfl := Host.Outcome.next.inj h; rfl

/-- With the keypad as it was, the key instructions too do the same whatever the other three hold. -/
theorem exec_mapIo_same_keys {i : Instr} (hi : i.mnemonic ∉ ["CLS", "DRW", "LD_ST_VX"]) {s t : State}
    (h : exec i s = .next t) (fb : BitVec 2048 → BitVec 2048) (st : Byte → Byte) (dirty : Bool → Bool) :
    exec i (s.mapIo id fb st dirty) = .next (t.mapIo id fb st dirty) := by
  cases i with
  | cls | drw x y n | ldStVx x => simp [Instr.mnemonic] at hi
  | skp x | sknp x => obtain rfl := Host.Outcome.next.inj h; rfl
  | ldVxK x =>
    cases hkey : highestKey s.keys with
    | some k =>
      obtain rfl := Host.Outcome.next.inj ((exec_ldVxK_of_pressed hkey x).symm.trans h)
      exact exec_ldVxK_of_pressed (s := s.mapIo id fb st dirty) hkey x
    | none =>
      obtain rfl := Host.Outcome.next.inj ((exec_ldVxK_of_none hkey x).symm.trans h)
      exact exec_ldVxK_of_none (s := s.mapIo id fb st dirty) hkey x
  | _ => exact exec_mapIo (by simp [Instr.mnemonic]) h id fb st dirty

/-! ### The keypad -/

/-- A drawing does not read the keypad. -/
theorem State.drawSprite_keys (s : State) (keys : BitVec 16) (mode : DrawOob) (vx vy : Byte) (n : Nat) :
    ({ s with keys := keys } : State).drawSprite mode vx vy n = { s.drawSprite mode vx vy n with keys := keys } := by
  have hpixels : ({ s with keys := keys } : State).spritePixels vx vy n = s.spritePixels vx vy n := rfl
  simp only [drawSprite, hpixels]
  cases Canvas.drawPixels mode ⟨s.fb, false⟩ (s.spritePixels vx vy n) <;> rfl

/-- Settles O23: CLS, DRW and LD ST,Vx write the framebuffer, VF or ST alike under any keys; the others leave all four. -/
theorem onlyKeyInstructionsReadTheKeypad : Obligations.OnlyKeyInstructionsReadTheKeypad := by
  intro i s keys hi
  obtain ⟨t, ht⟩ := exec_answers i s
  refine ⟨t, ht, ?_⟩
  cases i with
  | skp x | sknp x | ldVxK x => simp [Instr.mnemonic] at hi
  | cls | ldStVx x => obtain rfl := Host.Outcome.next.inj ht; rfl
  | drw x y n =>
    obtain rfl := Host.Outcome.next.inj ht
    exact congrArg _ (s.drawSprite_keys keys drawOob _ _ n.val)
  | _ => exact exec_mapIo (by simp [Instr.mnemonic]) ht (fun _ => keys) id id id

/-! ### ST and DIRTY -/

/-- A drawing reads neither ST nor DIRTY. -/
theorem State.drawSprite_st_dirty (s : State) (st : Byte) (dirty : Bool) (mode : DrawOob) (vx vy : Byte) (n : Nat) :
    ∃ dirty', ({ s with st := st, dirty := dirty } : State).drawSprite mode vx vy n =
      { s.drawSprite mode vx vy n with st := st, dirty := dirty' } := by
  have hpixels : ({ s with st := st, dirty := dirty } : State).spritePixels vx vy n = s.spritePixels vx vy n := rfl
  simp only [drawSprite, hpixels]
  cases Canvas.drawPixels mode ⟨s.fb, false⟩ (s.spritePixels vx vy n) <;> exact ⟨_, rfl⟩

/-- Whatever ST and DIRTY hold, an instruction does the same to everything else. -/
theorem exec_st_dirty {i : Instr} {s t : State} (h : exec i s = .next t) (st : Byte) (dirty : Bool) :
    ∃ st' dirty', exec i { s with st := st, dirty := dirty } = .next { t with st := st', dirty := dirty' } := by
  cases i with
  | cls | ldStVx x => obtain rfl := Host.Outcome.next.inj h; exact ⟨_, _, rfl⟩
  | drw x y n =>
    obtain rfl := Host.Outcome.next.inj h
    obtain ⟨dirty', hdraw⟩ := s.drawSprite_st_dirty st dirty drawOob (s.reg x) (s.reg y) n.val
    exact ⟨st, dirty', congrArg _ hdraw⟩
  | _ => exact ⟨st, dirty, exec_mapIo_same_keys (by simp [Instr.mnemonic]) h id (fun _ => st) fun _ => dirty⟩

/-- Writing ST and DIRTY leaves the other parts. -/
theorem sameBut_st_dirty (s : State) (st : Byte) (dirty : Bool) :
    SameBut [.st, .dirty] s { s with st := st, dirty := dirty } := by
  have hdirty : SameBut [.dirty] { s with st := st } { s with st := st, dirty := dirty } :=
    (sameBut_fb_dirty { s with st := st } s.fb dirty).of_cons fun _ _ => rfl
  exact ((sameBut_st s st).mono (by simp)).trans (hdirty.mono (by simp))

/-- Settles O24: the two executions end in states that differ in ST and DIRTY only. -/
theorem noInstructionReadsSoundTimerOrDirty : Obligations.NoInstructionReadsSoundTimerOrDirty := by
  intro i s st dirty
  obtain ⟨t, ht⟩ := exec_answers i s
  obtain ⟨st', dirty', hu⟩ := exec_st_dirty ht st dirty
  exact ⟨t, _, ht, hu, sameBut_st_dirty t st' dirty'⟩

/-! ### The framebuffer -/

/-- Two drawings from states that differ in the framebuffer only: both raise, or both commit a canvas. -/
theorem State.drawSprite_fb (s : State) (fb : BitVec 2048) (mode : DrawOob) (vx vy : Byte) {n : Nat} (hn : n ≤ 15) :
    let s' : State := { s with fb := fb }
    (∃ c c', s.drawSprite mode vx vy n = s.commitCanvas c ∧ s'.drawSprite mode vx vy n = s'.commitCanvas c') ∨
      (s.drawSprite mode vx vy n = s.raise .drawOutOfBounds ∧ s'.drawSprite mode vx vy n = s'.raise .drawOutOfBounds) := by
  intro s'
  have hout : SomePixelOutside s' vx vy n = SomePixelOutside s vx vy n := rfl
  obtain ⟨hmode, hsome, hraise⟩ | ⟨hin, c, hdraw, -⟩ := s.drawSprite_cases mode vx vy n hn
  · obtain ⟨-, -, hraise'⟩ | ⟨hin', -⟩ := s'.drawSprite_cases mode vx vy n hn
    · exact .inr ⟨hraise, hraise'⟩
    · exact absurd ⟨hmode, hsome⟩ hin'
  · obtain ⟨hmode', hsome', -⟩ | ⟨-, c', hdraw', -⟩ := s'.drawSprite_cases mode vx vy n hn
    · exact absurd ⟨hmode', hsome'⟩ hin
    · exact .inl ⟨c, c', hdraw, hdraw'⟩

/-- Writing the framebuffer leaves the other parts. -/
theorem sameBut_fb (s : State) (fb : BitVec 2048) : SameBut [.fb] s { s with fb := fb } :=
  SameBut.of_cons (p := .dirty) ((sameBut_fb_dirty s fb s.dirty).mono (by simp)) rfl

/-- Canvases committed to states that differ in the framebuffer only leave states that differ there and in VF only. -/
theorem sameBut_commitCanvas_fb (s : State) (fb : BitVec 2048) (c c' : Canvas) :
    SameBut [.fb, .v] (s.commitCanvas c) (({ s with fb := fb } : State).commitCanvas c') := by
  intro p hp
  cases p with
  | fb | v => simp at hp
  | stack | keys | mem => exact fun _ => rfl
  | _ => exact rfl

/-- Settles O25: but for DRW the framebuffer reaches at most itself; two drawings raise alike, or commit canvases, which
write the framebuffer and VF. -/
theorem framebufferReachesOnlyVFThroughDraw : Obligations.FramebufferReachesOnlyVFThroughDraw := by
  intro i s fb
  have of_same_registers {t : State} {fb' : BitVec 2048} (ht : exec i s = .next t)
      (hu : exec i { s with fb := fb } = .next { t with fb := fb' }) :
      ∃ t u, exec i s = .next t ∧ exec i { s with fb := fb } = .next u ∧ SameBut [.fb, .v] t u ∧
        ∀ r, (r ≠ 15 ∨ i.mnemonic ≠ "DRW") → u.reg r = t.reg r :=
    ⟨t, _, ht, hu, (sameBut_fb t fb').mono (by simp), fun _ _ => rfl⟩
  obtain ⟨t, ht⟩ := exec_answers i s
  cases i with
  | cls | ldStVx x => obtain rfl := Host.Outcome.next.inj ht; exact of_same_registers ht rfl
  | drw x y n =>
    obtain ⟨c, c', hdraw, hdraw'⟩ | ⟨hraise, hraise'⟩ :=
      s.drawSprite_fb fb drawOob (s.reg x) (s.reg y) (n := n.val) (by omega)
    · refine ⟨_, _, congrArg Host.Outcome.next hdraw, congrArg Host.Outcome.next hdraw',
        sameBut_commitCanvas_fb s fb c c', fun r hr => ?_⟩
      have hvf : r ≠ 15 := hr.resolve_right fun hm => hm rfl
      rw [State.reg_commitCanvas, State.reg_commitCanvas, if_neg hvf, if_neg hvf]
      rfl
    · exact of_same_registers (congrArg Host.Outcome.next hraise) (congrArg Host.Outcome.next hraise')
  | _ => exact of_same_registers ht (exec_mapIo_same_keys (by simp [Instr.mnemonic]) ht (fun _ => fb) id id)

end Sys2Proof.Machine

/-! ## The cycle (40_cycle_and_system.md, 60_exceptions.md): fetch, tick, status, beep, and the states that stay -/

namespace Sys2Proof.Machine

open Sys2Proof.Safety

/-! ### Fetch, step and tick -/

/-- Settles O11: the byte at `pc` and the byte after it, each through the translator, compose to the word. -/
theorem fetchComposesTwoBytesBigEndian : Obligations.FetchComposesTwoBytesBigEndian := by
  intro s
  rw [State.fetch, composeWord_toNat, State.memRead_add_ofNat, State.memRead, xlate_eq_mod]
  have haddr : (s.pc.toNat + 1) % 65536 % 4096 = (s.pc.toNat + 1) % 4096 := by omega
  rw [haddr]

/-- Settles O12: a step is a cycle of the decoded instruction, which ends with the tick or without. -/
theorem stepRunsTheDecodedInstruction : Obligations.StepRunsTheDecodedInstruction := by
  intro s i rest hrun hbytes
  obtain ⟨hfetch, -⟩ := (decodeBytes_fetch s i rest).mp hbytes
  obtain ⟨t, hexec⟩ := exec_answers i s
  refine ⟨t, hexec, ?_⟩
  rw [step_of_cycle (cycle_of_next hrun hfetch hexec)]
  by_cases ht : t.halt = 0#3
  · rw [finish_of_running ht, if_pos ht]; rfl
  · rw [finish_of_raised ht, if_neg ht]; rfl

/-- The tick beeps exactly when ST is 1 (R178). -/
theorem State.beepsOnTick_iff (s : State) : s.beepsOnTick = true ↔ s.st = 1#8 := beq_iff_eq

/-- Settles O13: the end of the cycle is the tick, or nothing after a raise. -/
theorem tickDecrementsBothTimersOnce : Obligations.TickDecrementsBothTimersOnce := by
  intro s t i rest hrun hbytes hexec
  obtain ⟨hfetch, -⟩ := (decodeBytes_fetch s i rest).mp hbytes
  refine ⟨_, cycle_of_next hrun hfetch hexec, fun ht => ?_, fun ht => ?_⟩
  · rw [finish_of_running ht]
    exact ⟨tickTimer_toNat t.dt, tickTimer_toNat t.st, sameBut_tick t, t.beepsOnTick_iff.trans BitVec.toNat_inj.symm⟩
  · rw [finish_of_raised ht]
    exact ⟨rfl, rfl, rfl⟩

/-- The cycle of an instruction that leaves HALT 0 and is not LD Vx,K ends with the tick and PROGRESS. -/
theorem cycle_of_progress {s t : State} {i : Instr} (hrun : s.halt = 0#3) (hd : decodeWord s.fetch = some i)
    (he : exec i s = .next t) (ht : t.halt = 0#3) (hi : awaitsKey i s = false) :
    cycle s = .next (ticked t .progress) := by
  rw [cycle_of_next hrun hd he, finish_of_running ht, hi]
  rfl

/-- Settles O54: the tick acts on the timer the instruction has just set. -/
theorem settingATimerTicksItInTheSameCycle : Obligations.SettingATimerTicksItInTheSameCycle := by
  intro x s hrun
  refine ⟨fun hd => ⟨_, cycle_of_progress hrun hd rfl hrun rfl, tickTimer_toNat (s.reg x), rfl⟩, fun hd => ?_⟩
  refine ⟨_, cycle_of_progress hrun hd rfl hrun rfl, tickTimer_toNat (s.reg x), rfl, ?_⟩
  exact (State.beepsOnTick_iff _).trans BitVec.toNat_inj.symm

/-! ### Status and beep -/

/-- An instruction waits exactly when it is LD Vx,K and no key is pressed (45_keypad_timers.md R163). -/
theorem awaitsKey_iff (i : Instr) (s : State) :
    awaitsKey i s = true ↔ (∃ x, i = .ldVxK x) ∧ ∀ k, s.key k = false := by
  cases i with
  | ldVxK x => simp [awaitsKey, keys_eq_zero_iff, State.key]
  | _ => simp [awaitsKey]

/-- An instruction that waits changes nothing. -/
theorem exec_of_awaitsKey {i : Instr} {s : State} (h : awaitsKey i s = true) : exec i s = .next s := by
  obtain ⟨⟨x, rfl⟩, hkeys⟩ := (awaitsKey_iff i s).mp h
  have hnone : highestKey s.keys = none := by rw [(keys_eq_zero_iff s.keys).mpr hkeys, highestKey_zero]
  exact exec_ldVxK_of_none hnone x

/-- An instruction of a running core that raises leaves `pc` as it was (60_exceptions.md R171). -/
theorem pc_of_exec_raised {i : Instr} {s t : State} (hrun : s.halt = 0#3) (h : exec i s = .next t)
    (ht : t.halt ≠ 0#3) : t.pc = s.pc := by
  obtain hsame | ⟨c, -, rfl⟩ := exec_halt_or_raises h
  · exact absurd (hsame.trans hrun) ht
  · rfl

/-- Settles O14: the tests of the cycle in their order; a waiting or raising instruction leaves `pc`. -/
theorem statusFollowsThePriority : Obligations.StatusFollowsThePriority := by
  intro s
  obtain ⟨r, hcycle⟩ := cycle_answers s
  refine ⟨r, hcycle, ?_⟩
  obtain ⟨hhalt, rfl⟩ | ⟨hrun, hd, rfl⟩ | ⟨i, t, hrun, hd, hexec, rfl⟩ := cycle_cases hcycle
  · simp [untouched, hhalt]
  · simp [ticked, hrun, hd]
  · by_cases hwait : awaitsKey i s = true
    · obtain rfl : s = t := Host.Outcome.next.inj ((exec_of_awaitsKey hwait).symm.trans hexec)
      rw [finish_of_running hrun]
      simpa [ticked, hrun, hd, hwait] using (awaitsKey_iff i s).mp hwait
    · have hbusy := (awaitsKey_iff i s).not.mp hwait
      by_cases ht : t.halt = 0#3
      · rw [finish_of_running ht]
        simpa [ticked, hrun, hd, hwait, ht] using hbusy
      · rw [finish_of_raised ht]
        simpa [untouched, hrun, hd, ht, pc_of_exec_raised hrun hexec ht] using hbusy

/-- An instruction other than LD ST,Vx leaves ST as it was (10_state.md R35). -/
theorem st_of_exec {i : Instr} {s t : State} (h : exec i s = .next t) (hi : ¬ ∃ x, i = .ldStVx x) : t.st = s.st := by
  refine sameBut_writes h .st fun hw => hi ?_
  cases i with
  | ldStVx x => exact ⟨x, rfl⟩
  | _ => simp [writes] at hw

/-- ST after an instruction is 1 exactly if LD ST,Vx has set it to 1 or it stood at 1 and was not set. -/
theorem st_of_exec_eq_one_iff {i : Instr} {s t : State} (h : exec i s = .next t) :
    t.st = 1#8 ↔ (∃ x, i = .ldStVx x ∧ s.reg x = 1#8) ∨ (¬ (∃ x, i = .ldStVx x) ∧ s.st = 1#8) := by
  by_cases hi : ∃ x, i = .ldStVx x
  · obtain ⟨x, rfl⟩ := hi
    obtain rfl := Host.Outcome.next.inj h
    simp
  · rw [st_of_exec h hi]
    simp only [hi, not_false_iff, true_and, iff_or_self]
    exact fun ⟨x, hx, _⟩ => absurd ⟨x, hx⟩ hi

/-- Settles O15: a cycle that ticks beeps exactly if ST is 1 before the tick, which is ST as the instruction left it. -/
theorem beepMarksTheSoundTimerReachingZero : Obligations.BeepMarksTheSoundTimerReachingZero := by
  intro s r hcycle
  have tick_zero {t : State} (h : t.beepsOnTick = true) : t.tick.st = 0#8 := by
    rw [State.tick_st, t.beepsOnTick_iff.mp h]
    rfl
  obtain ⟨-, rfl⟩ | ⟨-, hd, rfl⟩ | ⟨i, t, -, hd, hexec, rfl⟩ := cycle_cases hcycle
  · simp [untouched]
  · refine ⟨?_, tick_zero⟩
    simp [ticked, hd, State.beepsOnTick_iff]
  · by_cases ht : t.halt = 0#3
    · rw [finish_of_running ht]
      refine ⟨?_, tick_zero⟩
      have hstatus : ∀ b : Bool, (if b then Status.awaitingKey else .progress) ≠ .fatal ∧
          (if b then Status.awaitingKey else .progress) ≠ .halted := by decide
      simp only [ticked, State.beepsOnTick_iff, st_of_exec_eq_one_iff hexec, hd, Option.some.injEq, hstatus, true_and,
        ne_eq, not_false_iff]
    · rw [finish_of_raised ht]
      simp [untouched]

/-! ### States that stay -/

/-- The tick writes neither `pc` nor memory. -/
theorem State.fetch_tick (s : State) : s.tick.fetch = s.fetch := rfl

/-- The tick leaves a core at its unknown opcode. -/
theorem stuck_tick {s : State} (h : Stuck s) : Stuck s.tick := h

/-- `n` ticks take `n` from a timer, down to 0 (10_state.md R25). -/
theorem tickTimer_iterate_toNat (n : Nat) (b : Byte) : (tickTimer^[n] b).toNat = b.toNat - n := by
  induction n generalizing b with
  | zero => rfl
  | succ n ih =>
    rw [Function.iterate_succ_apply, ih, tickTimer_toNat]
    omega

/-- After 255 ticks or more a timer is 0. -/
theorem tickTimer_iterate_of_le {n : Nat} (hn : 255 ≤ n) (b : Byte) : tickTimer^[n] b = 0#8 := by
  have := b.isLt
  refine BitVec.eq_of_toNat_eq ?_
  rw [tickTimer_iterate_toNat, BitVec.toNat_ofNat]
  omega

/-- At an unknown opcode `n` steps are `n` ticks (R94). -/
theorem core_run_of_stuck {s : State} (h : Stuck s) (n : Nat) :
    Sys2Proof.core.run n s = .next { s with dt := tickTimer^[n] s.dt, st := tickTimer^[n] s.st } := by
  induction n generalizing s with
  | zero => rfl
  | succ n ih =>
    obtain ⟨hrun, hd⟩ := h
    rw [core_run_succ (step_of_cycle (cycle_of_unknown hrun hd))]
    exact ih (stuck_tick ⟨hrun, hd⟩)

/-- Settles O16: each cycle is a tick that leaves the core stuck, and 255 ticks run both timers down. -/
theorem unknownOpcodeIsHeldForEver : Obligations.UnknownOpcodeIsHeldForEver := by
  intro s hstuck
  refine ⟨?_, fun n hn => ?_⟩
  · obtain ⟨hrun, hd⟩ := hstuck
    exact ⟨_, cycle_of_unknown hrun hd, rfl, tickTimer_toNat s.dt, tickTimer_toNat s.st, sameBut_tick s,
      stuck_tick ⟨hrun, hd⟩⟩
  · rw [core_run_of_stuck hstuck, tickTimer_iterate_of_le hn, tickTimer_iterate_of_le hn]

/-- Settles O17: the cycle of a halted core leaves the state, so every number of steps does. -/
theorem haltedCoreDoesNothing : Obligations.HaltedCoreDoesNothing := by
  intro s hhalted
  have hcycle := cycle_of_halted hhalted
  refine ⟨⟨_, hcycle, rfl, rfl, rfl⟩, fun n => ?_⟩
  induction n with
  | zero => rfl
  | succ n ih => rw [core_run_succ (step_of_cycle hcycle)]; exact ih

/-- Settles O18: the jump leaves the state, so the step is a tick, which leaves what the fetch reads. -/
theorem selfJumpOnlyRunsTheTimersDown : Obligations.SelfJumpOnlyRunsTheTimersDown := by
  rintro s ⟨hrun, nnn, hd, hpc⟩
  have hexec : exec (.jp nnn) s = .next s := by
    have hjump : s.jump (target nnn) = s := by rw [← hpc]; rfl
    exact congrArg Host.Outcome.next hjump
  exact ⟨_, step_of_cycle (cycle_of_progress hrun hd hexec hrun rfl), tickTimer_toNat s.dt, tickTimer_toNat s.st,
    sameBut_tick s, hrun, nnn, hd, hpc⟩

/-- Settles O19: by O44 the store leaves `V0` and `V1` at the two addresses the next cycle fetches from. -/
theorem storeOverTheNextInstructionIsFetched : Obligations.StoreOverTheNextInstructionIsFetched := by
  intro s x hwf hrun hd hx hi
  obtain ⟨t, hexec, hstored, -, -, hpc, hframe⟩ := blockStoreWritesRegistersAtI x s hwf
  have ht : t.halt = 0#3 := (hframe .halt (by simp)).trans hrun
  have hfirst : t.memRead t.pc = s.reg 0 := by rw [hpc, ← hi]; simpa using hstored 0 (Nat.zero_le _)
  have hsecond : t.memRead (t.pc + 1#16) = s.reg 1 := by rw [hpc, ← hi]; exact hstored 1 hx
  refine ⟨_, step_of_cycle (cycle_of_progress hrun hd hexec ht rfl), ?_⟩
  change t.tick.fetch.toNat = _
  rw [State.fetch_tick, State.fetch, hfirst, hsecond, composeWord_toNat]

end Sys2Proof.Machine

/-! ## Encoding (30_encoding.md): decoding is a right inverse of encoding, the opcode map, the unknown words -/

namespace Sys2Proof

/-! ### The word of a decoded instruction -/

/-- Format NNN from its fields, for a known opcode nibble. -/
theorem encNNN_eq {w : Word} {t : BitVec 4} (ht : opT w = t) : encNNN t (opNNN w) = w :=
  ht ▸ encNNN_fields w

/-- Format XNN from its fields, for a known opcode nibble. -/
theorem encXNN_eq {w : Word} {t : BitVec 4} (ht : opT w = t) : encXNN t (opX w) (opNN w) = w :=
  ht ▸ encXNN_fields w

/-- Format XNN from its fields, for a known opcode nibble and low byte. -/
theorem encXNN_byte_eq {w : Word} {t : BitVec 4} {nn : Byte} (ht : opT w = t) (hnn : opNN w = nn) :
    encXNN t (opX w) nn = w :=
  hnn ▸ encXNN_eq ht

/-- Format XYN from its fields, for a known opcode nibble and low nibble. -/
theorem encXYN_eq {w : Word} {t n : BitVec 4} (ht : opT w = t) (hn : opN w = n) : encXYN t (opX w) (opY w) n = w :=
  ht ▸ hn ▸ encXYN_fields w

/-- A word decoded to `i` is the word of `i`, and `i` is well formed (R82). -/
def IsWordOf (w : Word) (i : Instr) : Prop := encode i = w ∧ i.wf = true

theorem isWordOf_of_family0 {w : Word} {i : Instr} (ht : opT w = 0x0#4) (h : decodeFamily0 w = some i) : IsWordOf w i := by
  simp only [decodeFamily0] at h
  split_ifs at h with hcls hret hsys <;> obtain rfl := Option.some.inj h
  · exact ⟨hcls.symm, rfl⟩
  · exact ⟨hret.symm, rfl⟩
  · exact ⟨encNNN_eq ht, by simpa [Instr.wf] using hsys⟩

theorem isWordOf_of_family8 {w : Word} {i : Instr} (ht : opT w = 0x8#4) (h : decodeFamily8 w = some i) : IsWordOf w i := by
  simp only [decodeFamily8] at h
  split_ifs at h with h0 h1 h2 h3 h4 h5 h6 h7 hE <;> obtain rfl := Option.some.inj h
  all_goals exact ⟨encXYN_eq ht ‹_›, rfl⟩

theorem isWordOf_of_familyE {w : Word} {i : Instr} (ht : opT w = 0xE#4) (h : decodeFamilyE w = some i) : IsWordOf w i := by
  simp only [decodeFamilyE] at h
  split_ifs at h with h9E hA1 <;> obtain rfl := Option.some.inj h
  all_goals exact ⟨encXNN_byte_eq ht ‹_›, rfl⟩

theorem isWordOf_of_familyF {w : Word} {i : Instr} (ht : opT w = 0xF#4) (h : decodeFamilyF w = some i) : IsWordOf w i := by
  simp only [decodeFamilyF] at h
  split_ifs at h with h07 h0A h15 h18 h1E h29 h33 h55 h65 <;> obtain rfl := Option.some.inj h
  all_goals exact ⟨encXNN_byte_eq ht ‹_›, rfl⟩

theorem nibble_cases : ∀ t : BitVec 4,
    t = 0x0#4 ∨ t = 0x1#4 ∨ t = 0x2#4 ∨ t = 0x3#4 ∨ t = 0x4#4 ∨ t = 0x5#4 ∨ t = 0x6#4 ∨ t = 0x7#4 ∨
    t = 0x8#4 ∨ t = 0x9#4 ∨ t = 0xA#4 ∨ t = 0xB#4 ∨ t = 0xC#4 ∨ t = 0xD#4 ∨ t = 0xE#4 ∨ t = 0xF#4 := by
  decide

/-- The decoder, family by family (R73). -/
theorem decodeWord_families (w : Word) :
    (opT w = 0x0#4 ∧ decodeWord w = decodeFamily0 w) ∨
    (opT w = 0x1#4 ∧ decodeWord w = some (.jp (opNNN w))) ∨
    (opT w = 0x2#4 ∧ decodeWord w = some (.call (opNNN w))) ∨
    (opT w = 0x3#4 ∧ decodeWord w = some (.seImm (opX w) (opNN w))) ∨
    (opT w = 0x4#4 ∧ decodeWord w = some (.sneImm (opX w) (opNN w))) ∨
    (opT w = 0x5#4 ∧ decodeWord w = if opN w = 0x0#4 then some (.seReg (opX w) (opY w)) else none) ∨
    (opT w = 0x6#4 ∧ decodeWord w = some (.ldImm (opX w) (opNN w))) ∨
    (opT w = 0x7#4 ∧ decodeWord w = some (.addImm (opX w) (opNN w))) ∨
    (opT w = 0x8#4 ∧ decodeWord w = decodeFamily8 w) ∨
    (opT w = 0x9#4 ∧ decodeWord w = if opN w = 0x0#4 then some (.sneReg (opX w) (opY w)) else none) ∨
    (opT w = 0xA#4 ∧ decodeWord w = some (.ldI (opNNN w))) ∨
    (opT w = 0xB#4 ∧ decodeWord w = some (.jpV0 (opNNN w))) ∨
    (opT w = 0xC#4 ∧ decodeWord w = some (.rnd (opX w) (opNN w))) ∨
    (opT w = 0xD#4 ∧ decodeWord w = some (.drw (opX w) (opY w) (opN w).toFin)) ∨
    (opT w = 0xE#4 ∧ decodeWord w = decodeFamilyE w) ∨
    (opT w = 0xF#4 ∧ decodeWord w = decodeFamilyF w) := by
  rcases nibble_cases (opT w) with h | h | h | h | h | h | h | h | h | h | h | h | h | h | h | h <;> simp [decodeWord, h]

/-- The decoder has one answer. -/
theorem isWordOf_of_some {w : Word} {i j : Instr} (hd : decodeWord w = some j) (h : decodeWord w = some i)
    (hj : IsWordOf w j) : IsWordOf w i :=
  Option.some.inj (hd.symm.trans h) ▸ hj

/-- Settles O2: family by family, the fields the decoder reads make up the word. -/
theorem encodeOfDecodeIsTheWord : Obligations.EncodeOfDecodeIsTheWord := by
  intro w i h
  change IsWordOf w i
  obtain ⟨ht, hd⟩ | ⟨ht, hd⟩ | ⟨ht, hd⟩ | ⟨ht, hd⟩ | ⟨ht, hd⟩ | ⟨ht, hd⟩ | ⟨ht, hd⟩ | ⟨ht, hd⟩ | ⟨ht, hd⟩ | ⟨ht, hd⟩ |
    ⟨ht, hd⟩ | ⟨ht, hd⟩ | ⟨ht, hd⟩ | ⟨ht, hd⟩ | ⟨ht, hd⟩ | ⟨ht, hd⟩ := decodeWord_families w
  · exact isWordOf_of_family0 ht (hd.symm.trans h)
  · exact isWordOf_of_some hd h ⟨encNNN_eq ht, rfl⟩
  · exact isWordOf_of_some hd h ⟨encNNN_eq ht, rfl⟩
  · exact isWordOf_of_some hd h ⟨encXNN_eq ht, rfl⟩
  · exact isWordOf_of_some hd h ⟨encXNN_eq ht, rfl⟩
  · obtain ⟨hn, hi⟩ := Option.ite_none_right_eq_some.mp (hd.symm.trans h)
    exact Option.some.inj hi ▸ ⟨encXYN_eq ht hn, rfl⟩
  · exact isWordOf_of_some hd h ⟨encXNN_eq ht, rfl⟩
  · exact isWordOf_of_some hd h ⟨encXNN_eq ht, rfl⟩
  · exact isWordOf_of_family8 ht (hd.symm.trans h)
  · obtain ⟨hn, hi⟩ := Option.ite_none_right_eq_some.mp (hd.symm.trans h)
    exact Option.some.inj hi ▸ ⟨encXYN_eq ht hn, rfl⟩
  · exact isWordOf_of_some hd h ⟨encNNN_eq ht, rfl⟩
  · exact isWordOf_of_some hd h ⟨encNNN_eq ht, rfl⟩
  · exact isWordOf_of_some hd h ⟨encXNN_eq ht, rfl⟩
  · exact isWordOf_of_some hd h ⟨encXYN_eq ht rfl, rfl⟩
  · exact isWordOf_of_familyE ht (hd.symm.trans h)
  · exact isWordOf_of_familyF ht (hd.symm.trans h)

/-! ### The opcode map -/

/-- What a row's mask selects (R74). -/
theorem and_mask_of_owns {row : OpcodeRow} {w : Word} (h : row.owns w = true) : w &&& row.mask = row.bits :=
  beq_iff_eq.mp (Bool.and_eq_true_iff.mp h).1

theorem opT_and (a b : Word) : opT (a &&& b) = opT a &&& opT b := BitVec.extractLsb'_and
theorem opN_and (a b : Word) : opN (a &&& b) = opN a &&& opN b := BitVec.extractLsb'_and
theorem opNN_and (a b : Word) : opNN (a &&& b) = opNN a &&& opNN b := BitVec.extractLsb'_and

/-- A row whose mask keeps the low nibble fixes it. -/
theorem opN_of_owns {row : OpcodeRow} {w : Word} (h : row.owns w = true) (hm : opN row.mask = 0xF#4) :
    opN w = opN row.bits := by
  rw [← and_mask_of_owns h, opN_and, hm]
  exact BitVec.and_allOnes.symm

/-- A row whose mask keeps the low byte fixes it. -/
theorem opNN_of_owns {row : OpcodeRow} {w : Word} (h : row.owns w = true) (hm : opNN row.mask = 0xFF#8) :
    opNN w = opNN row.bits := by
  rw [← and_mask_of_owns h, opNN_and, hm]
  exact BitVec.and_allOnes.symm

/-- The rows of one family. -/
def rowsOf (t : BitVec 4) : List OpcodeRow := opcodeMap.filter fun row => opT row.bits == t

/-- Every row fixes the opcode nibble, so a row that owns a word is of its family. -/
theorem mem_rowsOf_of_owns {row : OpcodeRow} {w : Word} {t : BitVec 4} (hrow : row ∈ opcodeMap) (h : row.owns w = true)
    (ht : opT w = t) : row ∈ rowsOf t := by
  have hmask : opT row.mask = 0xF#4 := (by decide : ∀ r ∈ opcodeMap, opT r.mask = 0xF#4) row hrow
  have hbits : opT row.bits = t := by
    rw [← and_mask_of_owns h, opT_and, hmask, ht]
    exact BitVec.and_allOnes
  exact List.mem_filter.mpr ⟨hrow, beq_iff_eq.mpr hbits⟩

/-- The mnemonic a family's decoder gives depends on the field it tests alone. -/
theorem mnemonic_decodeFamily8 {w w' : Word} (h : opN w = opN w') :
    (decodeFamily8 w).map Instr.mnemonic = (decodeFamily8 w').map Instr.mnemonic := by
  simp only [decodeFamily8, h, apply_ite (Option.map Instr.mnemonic), Option.map_some, Instr.mnemonic]

theorem mnemonic_decodeFamilyE {w w' : Word} (h : opNN w = opNN w') :
    (decodeFamilyE w).map Instr.mnemonic = (decodeFamilyE w').map Instr.mnemonic := by
  simp only [decodeFamilyE, h, apply_ite (Option.map Instr.mnemonic), Option.map_some, Instr.mnemonic]

theorem mnemonic_decodeFamilyF {w w' : Word} (h : opNN w = opNN w') :
    (decodeFamilyF w).map Instr.mnemonic = (decodeFamilyF w').map Instr.mnemonic := by
  simp only [decodeFamilyF, h, apply_ite (Option.map Instr.mnemonic), Option.map_some, Instr.mnemonic]

/-- The rows of family 0x0: CLS and RET own one word each, SYS the words outside its exclusions. -/
theorem mnemonic_decodeFamily0_of_owns {row : OpcodeRow} {w : Word} (ht : opT w = 0x0#4) (hrow : row ∈ rowsOf 0x0#4)
    (h : row.owns w = true) : (decodeFamily0 w).map Instr.mnemonic = some row.mnemonic := by
  have hmask := and_mask_of_owns h
  have hrows : rowsOf 0x0#4 = [⟨"CLS", 0xFFFF, 0x00E0⟩, ⟨"RET", 0xFFFF, 0x00EE⟩, ⟨"SYS", 0xF000, 0x0000⟩] := by decide
  have hword : w &&& 0xFFFF#16 = w := BitVec.and_allOnes
  simp only [hrows, List.mem_cons, List.not_mem_nil, or_false] at hrow
  obtain rfl | rfl | rfl := hrow
  · obtain rfl : w = 0x00E0#16 := hword.symm.trans hmask
    rfl
  · obtain rfl : w = 0x00EE#16 := hword.symm.trans hmask
    rfl
  · obtain ⟨-, hn⟩ : w &&& 0xF000#16 = 0#16 ∧ sysExcluded (opNNN w) = false := by simpa [OpcodeRow.owns] using h
    rw [← encNNN_eq ht, decodeFamily0_sys hn]
    rfl

/-- A word a row owns decodes to an instruction of the row's name (R73, R74). -/
theorem mnemonic_decodeWord_of_owns {row : OpcodeRow} {w : Word} (hmem : row ∈ opcodeMap) (h : row.owns w = true) :
    (decodeWord w).map Instr.mnemonic = some row.mnemonic := by
  have hrow {t : BitVec 4} (ht : opT w = t) : row ∈ rowsOf t := mem_rowsOf_of_owns hmem h ht
  obtain ⟨ht, hd⟩ | ⟨ht, hd⟩ | ⟨ht, hd⟩ | ⟨ht, hd⟩ | ⟨ht, hd⟩ | ⟨ht, hd⟩ | ⟨ht, hd⟩ | ⟨ht, hd⟩ | ⟨ht, hd⟩ | ⟨ht, hd⟩ |
    ⟨ht, hd⟩ | ⟨ht, hd⟩ | ⟨ht, hd⟩ | ⟨ht, hd⟩ | ⟨ht, hd⟩ | ⟨ht, hd⟩ := decodeWord_families w <;> rw [hd]
  · exact mnemonic_decodeFamily0_of_owns ht (hrow ht) h
  · exact (by decide : ∀ r ∈ rowsOf 0x1#4, some "JP" = some r.mnemonic) row (hrow ht)
  · exact (by decide : ∀ r ∈ rowsOf 0x2#4, some "CALL" = some r.mnemonic) row (hrow ht)
  · exact (by decide : ∀ r ∈ rowsOf 0x3#4, some "SE_IMM" = some r.mnemonic) row (hrow ht)
  · exact (by decide : ∀ r ∈ rowsOf 0x4#4, some "SNE_IMM" = some r.mnemonic) row (hrow ht)
  · obtain ⟨hm, hb, hname⟩ := (by decide : ∀ r ∈ rowsOf 0x5#4,
      opN r.mask = 0xF#4 ∧ opN r.bits = 0x0#4 ∧ some "SE_REG" = some r.mnemonic) row (hrow ht)
    rw [if_pos ((opN_of_owns h hm).trans hb)]
    exact hname
  · exact (by decide : ∀ r ∈ rowsOf 0x6#4, some "LD_IMM" = some r.mnemonic) row (hrow ht)
  · exact (by decide : ∀ r ∈ rowsOf 0x7#4, some "ADD_IMM" = some r.mnemonic) row (hrow ht)
  · obtain ⟨hm, hname⟩ := (by decide : ∀ r ∈ rowsOf 0x8#4,
      opN r.mask = 0xF#4 ∧ (decodeFamily8 r.bits).map Instr.mnemonic = some r.mnemonic) row (hrow ht)
    exact (mnemonic_decodeFamily8 (opN_of_owns h hm)).trans hname
  · obtain ⟨hm, hb, hname⟩ := (by decide : ∀ r ∈ rowsOf 0x9#4,
      opN r.mask = 0xF#4 ∧ opN r.bits = 0x0#4 ∧ some "SNE_REG" = some r.mnemonic) row (hrow ht)
    rw [if_pos ((opN_of_owns h hm).trans hb)]
    exact hname
  · exact (by decide : ∀ r ∈ rowsOf 0xA#4, some "LD_I" = some r.mnemonic) row (hrow ht)
  · exact (by decide : ∀ r ∈ rowsOf 0xB#4, some "JP_V0" = some r.mnemonic) row (hrow ht)
  · exact (by decide : ∀ r ∈ rowsOf 0xC#4, some "RND" = some r.mnemonic) row (hrow ht)
  · exact (by decide : ∀ r ∈ rowsOf 0xD#4, some "DRW" = some r.mnemonic) row (hrow ht)
  · obtain ⟨hm, hname⟩ := (by decide : ∀ r ∈ rowsOf 0xE#4,
      opNN r.mask = 0xFF#8 ∧ (decodeFamilyE r.bits).map Instr.mnemonic = some r.mnemonic) row (hrow ht)
    exact (mnemonic_decodeFamilyE (opNN_of_owns h hm)).trans hname
  · obtain ⟨hm, hname⟩ := (by decide : ∀ r ∈ rowsOf 0xF#4,
      opNN r.mask = 0xFF#8 ∧ (decodeFamilyF r.bits).map Instr.mnemonic = some r.mnemonic) row (hrow ht)
    exact (mnemonic_decodeFamilyF (opNN_of_owns h hm)).trans hname

/-- Every well-formed instruction's word is owned by the row of its name. -/
theorem Laws.OwnedByItsRow.all : ∀ i : Instr, Statement i
  | .cls => cls
  | .ret => ret
  | .sys nnn => sys nnn
  | .jp nnn => jp nnn
  | .call nnn => call nnn
  | .seImm x nn => seImm x nn
  | .sneImm x nn => sneImm x nn
  | .seReg x y => seReg x y
  | .ldImm x nn => ldImm x nn
  | .addImm x nn => addImm x nn
  | .ldReg x y => ldReg x y
  | .or x y => or x y
  | .and x y => and x y
  | .xor x y => xor x y
  | .addReg x y => addReg x y
  | .sub x y => sub x y
  | .shr x y => shr x y
  | .subn x y => subn x y
  | .shl x y => shl x y
  | .sneReg x y => sneReg x y
  | .ldI nnn => ldI nnn
  | .jpV0 nnn => jpV0 nnn
  | .rnd x nn => rnd x nn
  | .drw x y n => drw x y n
  | .skp x => skp x
  | .sknp x => sknp x
  | .ldVxDt x => ldVxDt x
  | .ldVxK x => ldVxK x
  | .ldDtVx x => ldDtVx x
  | .ldStVx x => ldStVx x
  | .addI x => addI x
  | .ldF x => ldF x
  | .ldB x => ldB x
  | .ldMemV x => ldMemV x
  | .ldVMem x => ldVMem x

/-- No two rows bear the same name. -/
theorem row_eq_of_mnemonic {row row' : OpcodeRow} (h : row ∈ opcodeMap) (h' : row' ∈ opcodeMap)
    (hname : row.mnemonic = row'.mnemonic) : row = row' := by
  have hnodup : (opcodeMap.map (·.mnemonic)).Nodup := by decide
  exact List.inj_on_of_nodup_map hnodup h h' hname

/-- Settles O3: an owned word decodes as its row says; a decoded word is its instruction's, which the row of that name
owns. -/
theorem opcodeMapRowsOwnWhatDecodesToThem : Obligations.OpcodeMapRowsOwnWhatDecodesToThem := by
  intro w row hrow
  constructor
  · exact fun h => Option.map_eq_some_iff.mp (mnemonic_decodeWord_of_owns hrow h)
  · rintro ⟨i, hd, hname⟩
    obtain ⟨henc, hwf⟩ := encodeOfDecodeIsTheWord w i hd
    obtain ⟨row', hrow', hname', howns⟩ := Laws.OwnedByItsRow.all i hwf
    obtain rfl := row_eq_of_mnemonic hrow' hrow (hname'.trans hname)
    exact henc ▸ howns

/-! ### The unknown words -/

theorem opN_eq_iff (w : Word) (n : BitVec 4) : opN w = n ↔ w.toNat % 16 = n.toNat := by
  rw [← opN_toNat, BitVec.toNat_inj]

theorem opNN_eq_iff (w : Word) (nn : Byte) : opNN w = nn ↔ w.toNat % 256 = nn.toNat := by
  rw [← opNN_toNat, BitVec.toNat_inj]

/-- A nested choice gives nothing exactly when its condition fails and its rest gives nothing. -/
theorem ite_some_eq_none {p : Prop} [Decidable p] {α : Type} (a : α) (o : Option α) :
    (if p then some a else o) = none ↔ ¬ p ∧ o = none := by
  split <;> simp [*]

theorem decodeFamily8_eq_none (w : Word) :
    decodeFamily8 w = none ↔ 8 ≤ w.toNat % 16 ∧ w.toNat % 16 ≠ 0xE := by
  simp only [decodeFamily8, ite_some_eq_none, opN_eq_iff, BitVec.toNat_ofNat, and_true]
  omega

theorem decodeFamilyE_eq_none (w : Word) :
    decodeFamilyE w = none ↔ w.toNat % 256 ≠ 0x9E ∧ w.toNat % 256 ≠ 0xA1 := by
  simp [decodeFamilyE, ite_some_eq_none, opNN_eq_iff]

theorem decodeFamilyF_eq_none (w : Word) :
    decodeFamilyF w = none ↔ w.toNat % 256 ∉ [0x07, 0x0A, 0x15, 0x18, 0x1E, 0x29, 0x33, 0x55, 0x65] := by
  simp [decodeFamilyF, ite_some_eq_none, opNN_eq_iff]

/-- The excluded operands of SYS as numbers (R81). -/
theorem sysExcluded_iff (nnn : BitVec 12) : sysExcluded nnn = true ↔ nnn.toNat = 0 ∨ nnn.toNat / 16 = 0x0E := by
  have h := nnn.isLt
  simp only [sysExcluded, Bool.or_eq_true, beq_iff_eq, ← BitVec.toNat_inj, BitVec.extractLsb'_toNat,
    Nat.shiftRight_eq_div_pow, BitVec.toNat_ofNat]
  omega

theorem decodeFamily0_eq_none {w : Word} (ht : w.toNat / 4096 = 0) : decodeFamily0 w = none ↔
    w.toNat = 0x0000 ∨ (0x00E1 ≤ w.toNat ∧ w.toNat ≤ 0x00ED) ∨ w.toNat = 0x00EF := by
  have hsys (o : Option Instr) : (if sysExcluded (opNNN w) = true then none else o) = none ↔
      (w.toNat % 4096 = 0 ∨ w.toNat % 4096 / 16 = 0x0E) ∨ o = none := by
    rw [← opNNN_toNat, ← sysExcluded_iff]
    split <;> simp [*]
  simp only [decodeFamily0, ite_some_eq_none, hsys, ← BitVec.toNat_inj, BitVec.toNat_ofNat, reduceCtorEq, or_false]
  omega

/-- Settles O4: family by family, with the tested field as a number. -/
theorem unknownWordsAreExactlyTheListed : Obligations.UnknownWordsAreExactlyTheListed := by
  intro w
  have family {t : BitVec 4} (ht : opT w = t) : w.toNat / 4096 = t.toNat := by rw [← opT_toNat, ht]
  obtain ⟨ht, hd⟩ | ⟨ht, hd⟩ | ⟨ht, hd⟩ | ⟨ht, hd⟩ | ⟨ht, hd⟩ | ⟨ht, hd⟩ | ⟨ht, hd⟩ | ⟨ht, hd⟩ | ⟨ht, hd⟩ | ⟨ht, hd⟩ |
    ⟨ht, hd⟩ | ⟨ht, hd⟩ | ⟨ht, hd⟩ | ⟨ht, hd⟩ | ⟨ht, hd⟩ | ⟨ht, hd⟩ := decodeWord_families w <;>
    rw [hd] <;> replace ht := family ht
  · rw [decodeFamily0_eq_none ht]
    rw [BitVec.toNat_ofNat] at ht
    omega
  all_goals
    simp only [BitVec.toNat_ofNat, reduceCtorEq, false_iff, and_true, ite_some_eq_none, opN_eq_iff, decodeFamily8_eq_none,
      decodeFamilyE_eq_none, decodeFamilyF_eq_none, List.mem_cons, List.not_mem_nil, or_false] at ht ⊢
    omega

end Sys2Proof

/-! ## ALU (42_alu.md): the instructions that write a flag, and RND -/

namespace Sys2Proof.Machine

open Sys2Proof.Safety

/-- A flag byte as a number (10_state.md R21). -/
theorem flagByte_decide_toNat (p : Prop) [Decidable p] : (flagByte (decide p)).toNat = if p then 1 else 0 := by
  by_cases h : p <;> simp [flagByte, h]

/-- The difference modulo 256 is the byte that plus the subtrahend gives the minuend (R120). -/
theorem subResult_add (a b : Byte) : ((subResult a b).toNat + b.toNat) % 256 = a.toNat := by
  have := a.isLt
  rw [subResult_toNat]
  omega

/-- Settles O36: the 9-bit sum gives result and carry. -/
theorem addWritesSumAndCarry : Obligations.AddWritesSumAndCarry := by
  intro x y s
  exact ⟨_, _, _, rfl, wroteFlagged_advance s x _ _, addResult_toNat _ _, flagByte_decide_toNat _⟩

/-- Settles O37: the difference and the strict comparison of the old values. -/
theorem subWritesDifferenceAndGreater : Obligations.SubWritesDifferenceAndGreater := by
  intro x y s
  exact ⟨_, _, _, rfl, wroteFlagged_advance s x _ _, subResult_add _ _, flagByte_decide_toNat _⟩

/-- Settles O38: as for SUB, with the operands exchanged. -/
theorem subnWritesReverseDifferenceAndGreater : Obligations.SubnWritesReverseDifferenceAndGreater := by
  intro x y s
  exact ⟨_, _, _, rfl, wroteFlagged_advance s x _ _, subResult_add _ _, flagByte_decide_toNat _⟩

/-- Settles O39: half of `Vy` and its bit 0. -/
theorem shrHalvesVyIntoVx : Obligations.ShrHalvesVyIntoVx := by
  intro x y s
  exact ⟨_, _, _, rfl, wroteFlagged_advance s x _ _, shrResult_toNat _, lowBitFlag_toNat _⟩

/-- Settles O40: twice `Vy` modulo 256 and its bit 7. -/
theorem shlDoublesVyIntoVx : Obligations.ShlDoublesVyIntoVx := by
  intro x y s
  exact ⟨_, _, _, rfl, wroteFlagged_advance s x _ _, shlResult_toNat _, highBitFlag_toNat _⟩

/-- Settles O41: one register takes the masked input, and one more input is counted. -/
theorem rndMasksTheInputByte : Obligations.RndMasksTheInputByte := by
  intro x nn s
  have hreg (r : RegIndex) : (s.loadRnd s.rndInput x nn).useRnd.reg r = if r = x then s.rndInput &&& nn else s.reg r :=
    State.reg_setReg s x _ r
  have hframe : SameBut [.v, .pc, .draws] s (s.loadRnd s.rndInput x nn).useRnd :=
    ((sameBut_setReg s x _).advance.mono (by simp)).trans ((sameBut_useRnd _).mono (by simp))
  refine ⟨_, rfl, fun k _ => ?_, fun r hr => ?_, rfl, rfl, hframe⟩
  · rw [hreg, if_pos rfl]
    exact BitVec.getLsbD_and
  · rw [hreg, if_neg hr]

end Sys2Proof.Machine

/-! ## Drawing under `DRAW_OOB` (44_display.md R151, R152) -/

namespace Sys2Proof.Machine

open Sys2Proof.Safety

/-- Settles O48: a drawing raises exactly under `fault` with a set pixel outside; else it inverts the drawn cells. -/
theorem drawInvertsExactlyTheDrawnCells : Obligations.DrawInvertsExactlyTheDrawnCells := by
  refine ⟨fun mode s vx vy n => ?_, fun _ _ _ _ => rfl⟩
  have hn : n.val ≤ 15 := by omega
  refine ⟨fun hfault => ?_, State.drewCells_drawSprite hn⟩
  obtain ⟨-, -, hraise⟩ | ⟨hin, -⟩ := s.drawSprite_cases mode vx vy n.val hn
  · exact hraise
  · exact absurd hfault hin

/-- With every set pixel inside the framebuffer the drawn cells are the set pixels, whatever `DRAW_OOB` is (R152 case (a)). -/
theorem drawnCell_eq_setPixel {s : State} {vx vy : Byte} {n : Nat} (h : ∀ L, SetPixel s vx vy n L → L < 2048)
    (mode : DrawOob) : DrawnCell mode s vx vy n = SetPixel s vx vy n := by
  funext c
  refine propext ⟨?_, fun hc => ⟨c, hc, .inl ⟨h c hc, rfl⟩⟩⟩
  rintro ⟨L, hL, ⟨-, rfl⟩ | ⟨hout, -⟩⟩
  · exact hL
  · exact absurd (h L hL) (Nat.not_lt.mpr hout)

/-- Settles O49: no set pixel is outside, so the drawing does not raise, and the cells it draws are the set pixels. -/
theorem drawCompletesInsideTheFramebuffer : Obligations.DrawCompletesInsideTheFramebuffer := by
  intro x y n s hinside
  have hin : ¬ (drawOob = .fault ∧ SomePixelOutside s (s.reg x) (s.reg y) n.val) := by
    rintro ⟨-, L, hL, hout⟩
    exact absurd (hinside L hL) (Nat.not_lt.mpr hout)
  have hdrew := State.drewCells_drawSprite (by omega) hin
  rw [drawnCell_eq_setPixel hinside] at hdrew
  exact ⟨_, rfl, hdrew⟩

end Sys2Proof.Machine

/-! ## Keypad (45_keypad_timers.md): the key skips and LD Vx,K -/

namespace Sys2Proof.Machine

open Sys2Proof.Safety

/-- Settles O32: each is a skip on the key of the low nibble, or on its negation. -/
theorem keySkipsTestTheSelectedKey : Obligations.KeySkipsTestTheSelectedKey := by
  intro x k s hk
  obtain rfl : k = keyOf (s.reg x) := Fin.ext (hk.trans (keyOf_val _).symm)
  have hSkp := exec_of_skipIf (i := .skp x) (s := s) rfl
  have hSknp := exec_of_skipIf (i := .sknp x) (s := s) rfl
  simp only [Bool.not_eq_true', ← Bool.not_eq_true, ite_not] at hSknp
  exact ⟨hSkp, hSknp⟩

/-- The highest pressed key is the one found (R163). -/
theorem highestKey_of_highest {s : State} {k : Fin 16} (hk : s.key k = true)
    (hmax : ∀ j, s.key j = true → j.val ≤ k.val) : highestKey s.keys = some k := by
  have hpressed : s.keys ≠ 0#16 := fun hzero => by
    have := (keys_eq_zero_iff s.keys).mp hzero k
    exact absurd (hk.symm.trans this) (by decide)
  obtain ⟨j, hj⟩ := highestKey_isSome hpressed
  obtain ⟨hjpressed, hjmax⟩ := highestKey_some hj
  obtain rfl : j = k := le_antisymm (hmax j hjpressed) (hjmax k hk)
  exact hj

/-- Settles O52: with no key pressed it waits; else one register takes the highest key, whose number fits a byte. -/
theorem waitForKeyTakesTheHighestKey : Obligations.WaitForKeyTakesTheHighestKey := by
  intro x s
  refine ⟨fun hnone => exec_of_awaitsKey ((awaitsKey_iff _ s).mpr ⟨⟨x, rfl⟩, hnone⟩), fun k hk hmax => ?_⟩
  have hbyte : (BitVec.ofNat 8 k.val).toNat = k.val := by
    rw [BitVec.toNat_ofNat]
    omega
  exact ⟨_, _, exec_ldVxK_of_pressed (highestKey_of_highest hk hmax) x, hbyte, wroteReg_advance s x _⟩

end Sys2Proof.Machine

/-! ## Reset, Load and SetKey (60_exceptions.md R183, 70_reset_and_hazards.md R190, R191) -/

namespace Sys2Proof.Machine

open Sys2Proof.Safety

/-! ### SetKey -/

/-- A keypad cell after one cell is set (10_state.md R26). -/
theorem setKeyCell_getLsbD (keys : BitVec 16) (index : Nat) (pressed : Bool) (k : Fin 16) :
    (setKeyCell keys index pressed).getLsbD k.val = if k.val = index then pressed else keys.getLsbD k.val := by
  have hbit : (BitVec.twoPow 16 index).getLsbD k.val = decide (k.val = index) := by
    rw [BitVec.getLsbD_twoPow, ← Bool.decide_and, decide_eq_decide]
    omega
  cases pressed with
  | true =>
    rw [setKeyCell, if_pos rfl, BitVec.getLsbD_or, hbit]
    by_cases h : k.val = index <;> simp [h]
  | false =>
    rw [setKeyCell, if_neg Bool.false_ne_true, BitVec.getLsbD_and, BitVec.getLsbD_not, hbit]
    by_cases h : k.val = index <;> simp [h]

/-- Writing the keypad leaves the other parts. -/
theorem sameBut_keys (s : State) (keys : BitVec 16) : SameBut [.keys] s { s with keys := keys } := by
  intro p hp
  cases p with
  | keys => simp at hp
  | v | stack | mem => exact fun _ => rfl
  | fb => exact fun _ _ => rfl
  | _ => exact rfl

/-- Settles O57: an index below 16 writes its cell, any other is turned away. -/
theorem setKeyWritesOneCell : Obligations.SetKeyWritesOneCell := by
  intro index pressed s
  refine ⟨fun hindex => ?_, fun hindex => ?_⟩
  · have hset : hostSetKey index pressed s = ({ s with keys := setKeyCell s.keys index pressed }, .ok) :=
      if_pos (by omega)
    refine ⟨{ s with keys := setKeyCell s.keys index pressed }, ?_, setKeyCell_getLsbD s.keys index pressed,
      sameBut_keys s _⟩
    simp only [perform, hset]
  · have hset : hostSetKey index pressed s = (s, .badKeyIndex) := if_neg (by omega)
    simp only [perform, hset]

/-! ### Reset -/

/-- A byte outside the font reads 0 in a memory that lists nothing (10_state.md R32). -/
theorem Memory.read_nil_of_outside {a : Nat} (h : a < 0x050 ∨ 0x0A0 ≤ a) : Memory.read [] a = 0 := by
  rw [Memory.read, Memory.blank, if_neg (by omega)]

/-- A font byte in a memory that lists nothing (R32, R33). -/
theorem Memory.read_nil_font {k : Nat} (h : k ≤ 79) : Memory.read [] (0x050 + k) = fontByte k := by
  rw [Memory.read, Memory.blank, if_pos (by omega), Nat.add_sub_cancel_left]

/-- Settles O6: every part is written out in `State.reset`, and memory lists nothing. -/
theorem resetLeavesTheTabulatedValues : Obligations.ResetLeavesTheTabulatedValues := by
  refine ⟨fun x => ?_, rfl, rfl, rfl, fun k => ?_, rfl, rfl, fun k => ?_, fun L _ => ?_, rfl, rfl, ?_, ?_, ?_⟩
  · exact Vector.getElem_replicate _
  · exact Vector.getElem_replicate _
  · exact BitVec.getLsbD_zero
  · exact BitVec.getLsbD_zero
  · exact fun a ha => Memory.read_nil_of_outside (.inl ha)
  · exact fun k hk => Memory.read_nil_font hk
  · exact fun a ha _ => Memory.read_nil_of_outside (.inr ha)

/-- Settles O7: Reset keeps the count of used `rnd` inputs, and nothing else of the state before it. -/
theorem resetForgetsTheStateBefore : Obligations.ResetForgetsTheStateBefore :=
  fun s => ⟨hostReset s, rfl, sameBut_hostReset s, rfl, rfl⟩

/-! ### Load -/

/-- An image that fits is stored at 0x200 (R191). -/
theorem perform_load_of_le {img : List Byte} (h : img.length ≤ 3584) (s : State) :
    perform (.load img) s = .next (s.storeBytes 0x0200#16 img, .load .ok) := by
  have hload : hostLoad img s = (s.storeBytes 0x0200#16 img, .ok) := if_pos h
  simp only [perform, hload]

/-- Byte `k` of a loaded image reads at 0x200 + `k`. -/
theorem read_loaded {img : List Byte} (h : img.length ≤ 3584) {s : State} (hwf : Memory.wf s.mem = true) {k : Nat}
    (hk : k < img.length) : Memory.read (s.storeBytes 0x0200#16 img).mem (0x200 + k) = img[k] := by
  have haddr : ((0x0200#16).toNat + k) % 4096 = 0x200 + k := by
    rw [BitVec.toNat_ofNat]
    omega
  rw [← haddr, ← State.memRead_add_ofNat, State.memRead_storeBytes hwf _ img (by omega) k hk]

/-- A byte outside a loaded image reads as before. -/
theorem read_outside_loaded {img : List Byte} (h : img.length ≤ 3584) {s : State} (hwf : Memory.wf s.mem = true) {a : Nat}
    (ha : a < 4096) (hout : a < 0x200 ∨ 0x200 + img.length ≤ a) :
    Memory.read (s.storeBytes 0x0200#16 img).mem a = Memory.read s.mem a := by
  have haddr : xlate (BitVec.ofNat 16 a) = a := by
    rw [xlate_eq_mod, BitVec.toNat_ofNat]
    omega
  have hread : (s.storeBytes 0x0200#16 img).memRead (BitVec.ofNat 16 a) = s.memRead (BitVec.ofNat 16 a) := by
    refine State.memRead_storeBytes_of_ne hwf _ img _ fun k hk => ?_
    simp only [BitVec.toNat_ofNat]
    omega
  rwa [State.memRead, State.memRead, haddr] at hread

/-- Settles O55: a block of stores at 0x200 that does not wrap, or nothing. -/
theorem loadCopiesTheImageOrNothing : Obligations.LoadCopiesTheImageOrNothing := by
  intro img s hwf
  refine ⟨fun hlen => ⟨_, perform_load_of_le hlen s, fun k hk => read_loaded hlen hwf hk, fun a ha hout => ?_,
    sameBut_storeBytes s _ img⟩, fun hlen => ?_⟩
  · exact read_outside_loaded hlen hwf ha hout
  · have hload : hostLoad img s = (s, .capacityExceeded) := if_neg (Nat.not_le.mpr hlen)
    simp only [perform, hload]

/-- Settles O56: the Reset operation leaves the tabulated values (O6), and Load changes memory at the image only (O55). -/
theorem programStartsFromResetAndLoad : Obligations.ProgramStartsFromResetAndLoad := by
  intro img s hlen
  obtain ⟨hreg, hpc, hi, hsp, hstack, hdt, hst, hkey, hcell, hdirty, hhalt, hlow, hfont, hhigh⟩ :=
    resetLeavesTheTabulatedValues
  obtain ⟨hwf, -⟩ := resetSatisfiesTheInvariant s.draws
  obtain ⟨u, hload, himage, hother, hframe⟩ := (loadCopiesTheImageOrNothing img (hostReset s) hwf).1 hlen
  have hall : SameBut [.mem, .draws] State.reset u :=
    ((sameBut_hostReset s).mono (by simp)).trans (hframe.mono (by simp))
  refine ⟨hostReset s, u, rfl, hload, ?_, fun x => ?_, ?_, ?_, fun k => ?_, ?_, ?_, fun k => ?_, fun L hL => ?_, ?_, ?_,
    fun k hk => ?_, fun k hk => ?_, fun a ha => ?_, fun a ha ha' => ?_, hall, ?_⟩
  · exact (congrArg BitVec.toNat (hall .pc (by simp))).trans hpc
  · exact (hall .v (by simp) x).trans (hreg x)
  · exact (hall .i (by simp)).trans hi
  · exact (hall .sp (by simp)).trans hsp
  · exact (hall .stack (by simp) k).trans (hstack k)
  · exact (hall .dt (by simp)).trans hdt
  · exact (hall .st (by simp)).trans hst
  · exact (hall .keys (by simp) k).trans (hkey k)
  · exact (hall .fb (by simp) L hL).trans (hcell L hL)
  · exact (hall .dirty (by simp)).trans hdirty
  · exact (hall .halt (by simp)).trans hhalt
  · by_cases hin : k < img.length
    · rw [himage k hin, List.getD_eq_getElem _ _ hin]
    · rw [hother _ (by omega) (.inr (by omega)), List.getD_eq_default _ _ (by omega)]
      exact hhigh _ (by omega) (by omega)
  · exact (hother _ (by omega) (.inl (by omega))).trans (hfont k hk)
  · exact (hother _ (by omega) (.inl (by omega))).trans (hlow a ha)
  · exact (hother _ (by omega) (.inl ha')).trans (hhigh a ha (by omega))
  · exact hframe .draws (by simp)

end Sys2Proof.Machine
